-- ==== Sys2Proof/Config.lean ====
section
/-! DEFINITION. The parameters of the hardware (00_scope.md R6) and the vocabulary they speak of: the 14 mnemonics,
the four addressing modes, and the map from mnemonics to base opcodes. -/

namespace Sys2Proof

/-- The 14 mnemonics, in the order of the legal-flags table (30_encoding.md R95). -/
inductive Mnemonic where
  | nop | add | sub | mul | div | halt | jump | jmpz | lod | sto | not | and | cmpl | cmpz
  deriving DecidableEq, Repr

/-- The addressing modes: `opcode[2:1]` = 0, 1, 2, 3, that is `flags` = 0, 2, 4, 6 (30_encoding.md R91). -/
inductive AddrMode where
  | direct | immediate | indirect | special
  deriving DecidableEq, Repr

/-- The mnemonics as a list, in the order of R95. -/
def Mnemonic.all : List Mnemonic :=
  [.nop, .add, .sub, .mul, .div, .halt, .jump, .jmpz, .lod, .sto, .not, .and, .cmpl, .cmpz]

/-- `OPMAP`: the base opcode, 0..31, of each mnemonic (00_scope.md R6, 30_encoding.md R96). It is an open parameter of the
spec; the decoder, the step and the assembler take it as an argument. It is no part of the state (10_state.md R31). -/
structure OpMap where
  code : Mnemonic → BitVec 5

/-- The default of `W`, the width of the accumulator, the program counter, a data slot and `arg`. `W` is an open parameter
(00_scope.md R6, decision D1): every type and operation of the model takes it as an argument, and a type written without it
is the one of the default. Only `exec`, `step` and `core` are of this width alone (DESIGN CHOICE, log 1). -/
abbrev Config.width : Nat := 32

/-- `DATA_SLOTS` (00_scope.md R6). -/
abbrev Config.dataSlots : Nat := 512

/-- `CODE_CAP` (00_scope.md R6). -/
abbrev Config.codeCap : Nat := 256

/-- The default `OPMAP`: the position of the mnemonic in the legal-flags table (30_encoding.md R96, decision D2; DESIGN
CHOICE, unsafe, log 2). -/
def Config.opMap : OpMap where
  code
    | .nop => 0 | .add => 1 | .sub => 2 | .mul => 3 | .div => 4 | .halt => 5 | .jump => 6
    | .jmpz => 7 | .lod => 8 | .sto => 9 | .not => 10 | .and => 11 | .cmpl => 12 | .cmpz => 13

end Sys2Proof
end

