-- ==== Sys2Proof/Word.lean ====
section
/-! DEFINITION. The word type and the entry of the code store. The word's arithmetic is in Machine/Ops.lean. -/

namespace Sys2Proof

/-- `Int_W`: a signed two's complement integer of `W` bits (00_scope.md R8); its integer value is `BitVec.toInt`. -/
abbrev Word (w : Nat := Config.width) : Type := BitVec w

/-- An entry of the code store, the Instruction record `(opcode, arg)` (10_state.md R29, 30_encoding.md R90). -/
structure CodeEntry (w : Nat := Config.width) where
  opcode : BitVec 8
  arg : Word w
  deriving DecidableEq, Repr

end Sys2Proof
end

