-- ==== Sys2Proof/Syntax.lean ====
section
/-! DEFINITION. The instructions: one constructor for each row of spec/opcode_table.json, that is for each legal
(mnemonic, addressing mode) form (30_encoding.md R97). Every form carries the whole `arg` field, the zero-operand ones too,
whose effects ignore it (30_encoding.md R90, R99, R102). -/

namespace Sys2Proof

variable {w : Nat}

inductive Instr (w : Nat := Config.width) where
  | nop (a : Word w)
  | addDirect (a : Word w)
  | addImmediate (a : Word w)
  | addIndirect (a : Word w)
  | subDirect (a : Word w)
  | subImmediate (a : Word w)
  | subIndirect (a : Word w)
  | mulDirect (a : Word w)
  | mulImmediate (a : Word w)
  | mulIndirect (a : Word w)
  | divDirect (a : Word w)
  | divImmediate (a : Word w)
  | divIndirect (a : Word w)
  | halt (a : Word w)
  | jumpDirect (a : Word w)
  | jumpImmediate (a : Word w)
  | jumpIndirect (a : Word w)
  | jumpSpecial (a : Word w)
  | jmpzDirect (a : Word w)
  | jmpzImmediate (a : Word w)
  | jmpzIndirect (a : Word w)
  | jmpzSpecial (a : Word w)
  | lodDirect (a : Word w)
  | lodImmediate (a : Word w)
  | lodIndirect (a : Word w)
  | stoDirect (a : Word w)
  | stoIndirect (a : Word w)
  | not (a : Word w)
  | andDirect (a : Word w)
  | andImmediate (a : Word w)
  | cmpl (a : Word w)
  | cmpz (a : Word w)
  deriving DecidableEq, Repr

end Sys2Proof
end

