-- ==== Sys2Proof/WellFormed.lean ====
section
/-! DEFINITION. The checks: which (mnemonic, mode) forms are legal (30_encoding.md R97), when a base-opcode map is one the
spec admits (R96), which widths it admits (00_scope.md R6), and an instruction's own well-formedness. -/

namespace Sys2Proof

variable {w : Nat}

/-- The legal flags of each mnemonic, as addressing modes: the table of 30_encoding.md R97. -/
def Mnemonic.legalModes : Mnemonic → List AddrMode
  | .nop => [.direct]
  | .add => [.direct, .immediate, .indirect]
  | .sub => [.direct, .immediate, .indirect]
  | .mul => [.direct, .immediate, .indirect]
  | .div => [.direct, .immediate, .indirect]
  | .halt => [.direct]
  | .jump => [.direct, .immediate, .indirect, .special]
  | .jmpz => [.direct, .immediate, .indirect, .special]
  | .lod => [.direct, .immediate, .indirect]
  | .sto => [.direct, .indirect]
  | .not => [.direct]
  | .and => [.direct, .immediate]
  | .cmpl => [.direct]
  | .cmpz => [.direct]

/-- `Legal(m, flags)` (30_encoding.md R97). -/
def Legal (m : Mnemonic) (mode : AddrMode) : Bool := m.legalModes.contains mode

/-- The mnemonic of the row of spec/opcode_table.json that a constructor stands for. -/
def Instr.mnemonic : Instr w → Mnemonic
  | .nop _ => .nop
  | .addDirect _ => .add
  | .addImmediate _ => .add
  | .addIndirect _ => .add
  | .subDirect _ => .sub
  | .subImmediate _ => .sub
  | .subIndirect _ => .sub
  | .mulDirect _ => .mul
  | .mulImmediate _ => .mul
  | .mulIndirect _ => .mul
  | .divDirect _ => .div
  | .divImmediate _ => .div
  | .divIndirect _ => .div
  | .halt _ => .halt
  | .jumpDirect _ => .jump
  | .jumpImmediate _ => .jump
  | .jumpIndirect _ => .jump
  | .jumpSpecial _ => .jump
  | .jmpzDirect _ => .jmpz
  | .jmpzImmediate _ => .jmpz
  | .jmpzIndirect _ => .jmpz
  | .jmpzSpecial _ => .jmpz
  | .lodDirect _ => .lod
  | .lodImmediate _ => .lod
  | .lodIndirect _ => .lod
  | .stoDirect _ => .sto
  | .stoIndirect _ => .sto
  | .not _ => .not
  | .andDirect _ => .and
  | .andImmediate _ => .and
  | .cmpl _ => .cmpl
  | .cmpz _ => .cmpz

/-- The addressing mode of the row that a constructor stands for. -/
def Instr.mode : Instr w → AddrMode
  | .nop _ => .direct
  | .addDirect _ => .direct
  | .addImmediate _ => .immediate
  | .addIndirect _ => .indirect
  | .subDirect _ => .direct
  | .subImmediate _ => .immediate
  | .subIndirect _ => .indirect
  | .mulDirect _ => .direct
  | .mulImmediate _ => .immediate
  | .mulIndirect _ => .indirect
  | .divDirect _ => .direct
  | .divImmediate _ => .immediate
  | .divIndirect _ => .indirect
  | .halt _ => .direct
  | .jumpDirect _ => .direct
  | .jumpImmediate _ => .immediate
  | .jumpIndirect _ => .indirect
  | .jumpSpecial _ => .special
  | .jmpzDirect _ => .direct
  | .jmpzImmediate _ => .immediate
  | .jmpzIndirect _ => .indirect
  | .jmpzSpecial _ => .special
  | .lodDirect _ => .direct
  | .lodImmediate _ => .immediate
  | .lodIndirect _ => .indirect
  | .stoDirect _ => .direct
  | .stoIndirect _ => .indirect
  | .not _ => .direct
  | .andDirect _ => .direct
  | .andImmediate _ => .immediate
  | .cmpl _ => .direct
  | .cmpz _ => .direct

/-- The `arg` field (30_encoding.md R99). -/
def Instr.arg : Instr w → Word w
  | .nop a => a
  | .addDirect a => a
  | .addImmediate a => a
  | .addIndirect a => a
  | .subDirect a => a
  | .subImmediate a => a
  | .subIndirect a => a
  | .mulDirect a => a
  | .mulImmediate a => a
  | .mulIndirect a => a
  | .divDirect a => a
  | .divImmediate a => a
  | .divIndirect a => a
  | .halt a => a
  | .jumpDirect a => a
  | .jumpImmediate a => a
  | .jumpIndirect a => a
  | .jumpSpecial a => a
  | .jmpzDirect a => a
  | .jmpzImmediate a => a
  | .jmpzIndirect a => a
  | .jmpzSpecial a => a
  | .lodDirect a => a
  | .lodImmediate a => a
  | .lodIndirect a => a
  | .stoDirect a => a
  | .stoIndirect a => a
  | .not a => a
  | .andDirect a => a
  | .andImmediate a => a
  | .cmpl a => a
  | .cmpz a => a

/-- An instruction is well formed when its form is legal. `Instr` has no constructor for an illegal form, so every
instruction is (Laws/PerInstr.lean); the forms this check refuses are (mnemonic, mode) pairs, which the decoder and the
assembler meet. -/
def Instr.wellFormed (i : Instr w) : Bool := Legal i.mnemonic i.mode

/-- The maps `OPMAP` may be: the injective ones (00_scope.md R6, 30_encoding.md R96). -/
def OpMap.wellFormed (om : OpMap) : Bool :=
  Mnemonic.all.all fun m => Mnemonic.all.all fun n => m == n || om.code m != om.code n

/-- The widths `W` may be: those at which a signed word holds every data and every code index (00_scope.md R6). -/
def Config.widthOk (w : Nat) : Bool := decide (10 ≤ w)

end Sys2Proof
end

