-- ==== Sys2Proof/Decode.lean ====
section
/-! DEFINITION. The `instruction_decoder` block: opcode fields, parity, the decoder (total, rejecting by name), its ports,
then the encoder (30_encoding.md R91 to R106). Every function takes `OPMAP` as an argument. -/

namespace Sys2Proof

variable {w : Nat}

/-- The 2-bit field `mode = opcode[2:1]` of an addressing mode (30_encoding.md R91). -/
def AddrMode.bits : AddrMode → BitVec 2
  | .direct => 0
  | .immediate => 1
  | .indirect => 2
  | .special => 3

/-- The addressing mode of a 2-bit field (30_encoding.md R91). -/
def AddrMode.ofBits (k : BitVec 2) : AddrMode :=
  if k = 0 then .direct else if k = 1 then .immediate else if k = 2 then .indirect else .special

/-- The masked value `flags = 2 * mode`: 0, 2, 4 or 6 (30_encoding.md R91). -/
def AddrMode.flags (mode : AddrMode) : Nat := 2 * mode.bits.toNat

/-- The number of bits of a byte that are 1 (00_scope.md R9). -/
def popcount (v : BitVec 8) : Nat := (List.range 8).countP fun i => v.getLsbD i

/-- `ParityOk(opcode)`: an even number of ones over all eight bits (30_encoding.md R93). -/
def parityOk (opcode : BitVec 8) : Bool := popcount opcode % 2 == 0

/-- `base_opcode = opcode[7:3]` (30_encoding.md R94). -/
def baseOpcode (opcode : BitVec 8) : BitVec 5 := opcode.extractLsb' 3 5

/-- `mode = opcode[2:1]` (30_encoding.md R94). -/
def modeBits (opcode : BitVec 8) : BitVec 2 := opcode.extractLsb' 1 2

/-- `MNEMONIC(b)`: the mnemonic whose base opcode is `b`; `none` is UNASSIGNED (30_encoding.md R96). -/
def mnemonicOf (om : OpMap) (b : BitVec 5) : Option Mnemonic :=
  Mnemonic.all.find? fun m => om.code m == b

/-- The decoder's refusals, with the payloads of 60_exceptions.md R241, R242, R243. -/
inductive DecodeFault where
  | parity (opcode : BitVec 8)
  | unassignedOpcode (base : BitVec 5)
  | illegalInstruction (mode : BitVec 2)
  deriving DecidableEq, Repr

/-- `Decode(opcode)`: parity, then assignment, then legality of the flags, in that order (30_encoding.md R98). -/
def decodeOpcode (om : OpMap) (opcode : BitVec 8) : Except DecodeFault (Mnemonic × AddrMode) :=
  if parityOk opcode then
    match mnemonicOf om (baseOpcode opcode) with
    | none => .error (.unassignedOpcode (baseOpcode opcode))
    | some m =>
      if Legal m (AddrMode.ofBits (modeBits opcode)) then .ok (m, AddrMode.ofBits (modeBits opcode))
      else .error (.illegalInstruction (modeBits opcode))
  else .error (.parity opcode)

/-- The instruction of a form and an argument: the constructor of the form's row of spec/opcode_table.json, none for the
24 illegal forms (30_encoding.md R97). -/
def Instr.ofForm (m : Mnemonic) (mode : AddrMode) (a : Word w) : Option (Instr w) :=
  match m, mode with
  | .nop, .direct => some (.nop a)
  | .nop, .immediate => none
  | .nop, .indirect => none
  | .nop, .special => none
  | .add, .direct => some (.addDirect a)
  | .add, .immediate => some (.addImmediate a)
  | .add, .indirect => some (.addIndirect a)
  | .add, .special => none
  | .sub, .direct => some (.subDirect a)
  | .sub, .immediate => some (.subImmediate a)
  | .sub, .indirect => some (.subIndirect a)
  | .sub, .special => none
  | .mul, .direct => some (.mulDirect a)
  | .mul, .immediate => some (.mulImmediate a)
  | .mul, .indirect => some (.mulIndirect a)
  | .mul, .special => none
  | .div, .direct => some (.divDirect a)
  | .div, .immediate => some (.divImmediate a)
  | .div, .indirect => some (.divIndirect a)
  | .div, .special => none
  | .halt, .direct => some (.halt a)
  | .halt, .immediate => none
  | .halt, .indirect => none
  | .halt, .special => none
  | .jump, .direct => some (.jumpDirect a)
  | .jump, .immediate => some (.jumpImmediate a)
  | .jump, .indirect => some (.jumpIndirect a)
  | .jump, .special => some (.jumpSpecial a)
  | .jmpz, .direct => some (.jmpzDirect a)
  | .jmpz, .immediate => some (.jmpzImmediate a)
  | .jmpz, .indirect => some (.jmpzIndirect a)
  | .jmpz, .special => some (.jmpzSpecial a)
  | .lod, .direct => some (.lodDirect a)
  | .lod, .immediate => some (.lodImmediate a)
  | .lod, .indirect => some (.lodIndirect a)
  | .lod, .special => none
  | .sto, .direct => some (.stoDirect a)
  | .sto, .immediate => none
  | .sto, .indirect => some (.stoIndirect a)
  | .sto, .special => none
  | .not, .direct => some (.not a)
  | .not, .immediate => none
  | .not, .indirect => none
  | .not, .special => none
  | .and, .direct => some (.andDirect a)
  | .and, .immediate => some (.andImmediate a)
  | .and, .indirect => none
  | .and, .special => none
  | .cmpl, .direct => some (.cmpl a)
  | .cmpl, .immediate => none
  | .cmpl, .indirect => none
  | .cmpl, .special => none
  | .cmpz, .direct => some (.cmpz a)
  | .cmpz, .immediate => none
  | .cmpz, .indirect => none
  | .cmpz, .special => none

/-- The decoder on an entry of the code store: the verdict on its opcode, with its `arg` taken whole (30_encoding.md R98,
R99). The inner `none` is never reached: a form the legality check passes has a constructor (Laws/Decode.lean). -/
def decodeEntry (om : OpMap) (e : CodeEntry w) : Except DecodeFault (Instr w) :=
  match decodeOpcode om e.opcode with
  | .error f => .error f
  | .ok (m, mode) =>
    match Instr.ofForm m mode e.arg with
    | some i => .ok i
    | none => .error (.illegalInstruction mode.bits)

/-- How a legal form uses its argument (30_encoding.md R106). -/
inductive Path where
  | none | value | store | target
  deriving DecidableEq, Repr

/-- The dispatch class of a mnemonic: the table of 30_encoding.md R106. -/
def Mnemonic.path : Mnemonic → Path
  | .nop => .none
  | .halt => .none
  | .not => .none
  | .add => .value
  | .sub => .value
  | .mul => .value
  | .div => .value
  | .lod => .value
  | .and => .value
  | .cmpl => .value
  | .cmpz => .value
  | .sto => .store
  | .jump => .target
  | .jmpz => .target

/-- The output ports of the decoder block (30_encoding.md R105). `mnemonic` and `path` are `none` where the rule calls
them meaningless: a base opcode that is not assigned, a verdict that is not `Ok`. -/
structure DecoderPorts where
  parityOk : Bool
  baseOpcode : BitVec 5
  mode : BitVec 2
  assigned : Bool
  mnemonic : Option Mnemonic
  flagsLegal : Bool
  verdict : Except DecodeFault (Mnemonic × AddrMode)
  path : Option Path

/-- The ports as functions of the opcode alone (30_encoding.md R105). -/
def decoderPorts (om : OpMap) (opcode : BitVec 8) : DecoderPorts where
  parityOk := parityOk opcode
  baseOpcode := baseOpcode opcode
  mode := modeBits opcode
  assigned := (mnemonicOf om (baseOpcode opcode)).isSome
  mnemonic := mnemonicOf om (baseOpcode opcode)
  flagsLegal := (mnemonicOf om (baseOpcode opcode)).any fun m => Legal m (AddrMode.ofBits (modeBits opcode))
  verdict := decodeOpcode om opcode
  path := match decodeOpcode om opcode with
    | .ok (m, _) => some m.path
    | .error _ => none

/-- `encode(base_opcode, flags)`: the fields, then the parity bit that makes the count of ones even (30_encoding.md R92). -/
def encodeOpcode (base : BitVec 5) (mode : AddrMode) : BitVec 8 :=
  BitVec.ofNat 8 (8 * base.toNat + mode.flags + popcount (BitVec.ofNat 8 (8 * base.toNat + mode.flags)) % 2)

/-- The entry of a form, legal or not: what the assembler stores (30_encoding.md R131). -/
def encodeForm (om : OpMap) (m : Mnemonic) (mode : AddrMode) (a : Word w) : CodeEntry w :=
  ⟨encodeOpcode (om.code m) mode, a⟩

/-- The code-store entry of an instruction (30_encoding.md R92, R96). -/
def encode (om : OpMap) (i : Instr w) : CodeEntry w := encodeForm om i.mnemonic i.mode i.arg

/-- An entry from the bits of one number: the opcode in the 8 lowest bits, `arg` in the bits above, every bit from `nbits`
up being 0. The spec never flattens an entry (30_encoding.md R90); this layout serves the host only (DESIGN CHOICE, safe,
log 6). -/
def entryOfBits (nbits bits : Nat) : CodeEntry w :=
  ⟨BitVec.ofNat 8 (bits % 2 ^ nbits), BitVec.ofNat w (bits % 2 ^ nbits / 256)⟩

/-- The instruction the decoder reads from a row's bits under the default `OPMAP` and width; none where it refuses. -/
def decodeTableWord (nbits bits : Nat) : Option Instr :=
  match decodeEntry Config.opMap (entryOfBits nbits bits) with
  | .ok i => some i
  | .error _ => none

end Sys2Proof
end

