-- ==== Sys2Proof/Machine/State.lean ====
section
/-! DEFINITION. The state: the seven items of 10_state.md R20, as plain data; the faults; the outputs of a step; the state
after reset. -/

namespace Sys2Proof.Machine

/-- The data store `D`, sparse: (index, content) pairs. A slot not listed holds `Memory.unlisted`. The unit is the spec's,
one whole slot of `W` bits: the machine has no bytes (20_memory.md R63; log 4). -/
abbrev Memory (w : Nat := Config.width) : Type := List (Nat × Word w)

/-- What a slot that is not listed holds: "512 slots, zero-initialized" (10_state.md R25, 20_memory.md R51). -/
def Memory.unlisted {w : Nat} : Word w := 0

/-- Canonical from index `lo` on: indices strictly rising, all below `DATA_SLOTS`, no entry equal to what an unlisted slot
holds. -/
def Memory.wfFrom {w : Nat} : Nat → Memory w → Bool
  | _, [] => true
  | lo, (k, v) :: rest =>
    decide (lo ≤ k) && decide (k < Config.dataSlots) && decide (v ≠ Memory.unlisted) && Memory.wfFrom (k + 1) rest

/-- The canonical form of the data store: equal stores are equal lists. -/
def Memory.wf {w : Nat} (m : Memory w) : Bool := Memory.wfFrom 0 m

/-- The state of the block (10_state.md R20). `code` lists the entries in use, so `code_size` is its length (`codeSize`;
log 5). -/
structure State (w : Nat := Config.width) where
  acc : Word w
  pc : Word w
  halted : Bool
  data : Memory w
  code : List (CodeEntry w)
  changedDataIndex : Option (Fin Config.dataSlots)
  deriving DecidableEq, Repr

/-- `code_size`: how many entries of `code` are in use (10_state.md R20, R26). -/
def State.codeSize {w : Nat} (s : State w) : Nat := s.code.length

/-- The state after `clear()` and at construction, at any width (10_state.md R33, 70_reset_and_hazards.md R280, R281). -/
def State.resetAt (w : Nat) : State w where
  acc := 0
  pc := 0
  halted := false
  data := []
  code := []
  changedDataIndex := none

/-- The state after reset at the default width. -/
def State.reset : State := State.resetAt Config.width

/-- The six fault kinds with their payloads (60_exceptions.md R240 to R247). A fault is reported in `StepReport.result`;
its entry (R246) is a NEXT STATE with `halted` set, so `exec` and `step` never answer with the interface's outcome
`Host.Outcome.fault` (log 3). Each is safe: no value is ever returned in its place. -/
inductive Fault (w : Nat := Config.width) where
  /-- Raised by the fetch of any step with `pc` outside `0 .. code_size - 1`, and reported by the host's code ports; the
  payload is the index (R240). Safe. -/
  | codeAccess (index : Word w)
  /-- Raised by the decode of an opcode with an odd number of ones; the payload is the opcode (R241). Safe. -/
  | parity (opcode : BitVec 8)
  /-- Raised by the decode of an opcode of even parity whose base opcode no mnemonic has; the payload is the base opcode
  (R243). Safe. -/
  | unassignedOpcode (base : BitVec 5)
  /-- Raised by the decode of an assigned base opcode with flags not legal for it; the payload is `opcode[2:1]` (R242).
  Safe. -/
  | illegalInstruction (mode : BitVec 2)
  /-- Raised by a data read of a step with an index outside 0..511, and reported by the host's data ports; the payload is
  the index (R244). Safe. -/
  | dataAccess (index : Word w)
  /-- Raised by DIV on an operand of 0 (R245). Safe. -/
  | divideByZero
  deriving DecidableEq, Repr

/-- Reasons for which the model gives an instruction no meaning. No meaning of this model refuses. -/
inductive Refusal where
  /-- Answered only by an arm of `exec` whose instruction has no meaning yet; there is none. Safe. -/
  | notModelled (mnemonic : String)
  deriving DecidableEq, Repr

/-- The `result` of a step: `Done` or `Fault(kind, info)` (40_fetch_decode_dispatch.md R150). -/
inductive StepResult (w : Nat := Config.width) where
  | done
  | fault (f : Fault w)
  deriving DecidableEq, Repr

/-- What one step yields: the new state and its two outputs (40_fetch_decode_dispatch.md R150). The outputs are not state
(10_state.md R31). -/
structure StepReport (w : Nat := Config.width) where
  state : State w
  result : StepResult w
  haltSignal : Bool
  deriving DecidableEq, Repr

/-- What an effect yields: the state after its writes, or the fault it raises, whose writes are discarded
(40_fetch_decode_dispatch.md R150). -/
abbrev Effect (w : Nat := Config.width) : Type := Except (Fault w) (State w)

/-- The interface's outcome at a width. -/
abbrev Outcome (w : Nat := Config.width) : Type := Host.Outcome (State w) (Fault w) Refusal

end Sys2Proof.Machine
end

