-- ==== Sys2Proof/Machine/Ops.lean ====
section
/-! DEFINITION. The named operations: integer arithmetic, the `bounded_memory_module` (20_memory.md), the `pc` update, the
entry of a fault and the end of a step. -/

namespace Sys2Proof.Machine

variable {w : Nat}

/-! ## Integer arithmetic: the exact result, then `wrap_W` (42_arithmetic.md R180), for any width -/

/-- `wrap_W(z)`: the `W`-bit signed integer congruent to `z` modulo `2^W` (00_scope.md R8). -/
def wrap (z : Int) : BitVec w := BitVec.ofInt w z

/-- `wrap_W(x + y)` (42_arithmetic.md R180). -/
def addW (x y : BitVec w) : BitVec w := wrap (x.toInt + y.toInt)

/-- `wrap_W(x - y)` (42_arithmetic.md R180). -/
def subW (x y : BitVec w) : BitVec w := wrap (x.toInt - y.toInt)

/-- `wrap_W(x * y)`: the low `W` bits of the signed product (42_arithmetic.md R180, R181). -/
def mulW (x y : BitVec w) : BitVec w := wrap (x.toInt * y.toInt)

/-- The quotient rounded toward zero, wrapped, for a divisor that is not 0 (42_arithmetic.md R182). -/
def divW (x y : BitVec w) : BitVec w := wrap (Int.tdiv x.toInt y.toInt)

/-! ## The data store -/

/-- The content of a slot. -/
def Memory.get : Memory w → Nat → Word w
  | [], _ => Memory.unlisted
  | (k, v) :: rest, i => if k = i then v else Memory.get rest i

/-- A slot written, the canonical form kept: writing what an unlisted slot holds removes the entry. -/
def Memory.set : Memory w → Nat → Word w → Memory w
  | [], i, v => if v = Memory.unlisted then [] else [(i, v)]
  | (k, w) :: rest, i, v =>
    if k < i then (k, w) :: Memory.set rest i v
    else if k = i then (if v = Memory.unlisted then rest else (i, v) :: rest)
    else (if v = Memory.unlisted then (k, w) :: rest else (i, v) :: (k, w) :: rest)

/-- `D[i]` for an index in range (10_state.md R25). -/
def State.slot (s : State w) (i : Fin Config.dataSlots) : Word w := Memory.get s.data i.val

/-- The address decoder of the data store, `InData(i)`: the slot a signed index names, none outside 0..511; nothing is
reduced modulo 512 (20_memory.md R50). -/
def dataIndex? (i : Word w) : Option (Fin Config.dataSlots) :=
  if h : 0 ≤ i.toInt ∧ i.toInt < Config.dataSlots then some ⟨i.toInt.toNat, by omega⟩ else none

/-- `MemRead(addr, 1)`, the source's `getData` as a step uses it (20_memory.md R52). -/
def memRead (s : State w) (i : Word w) : Except (Fault w) (Word w) :=
  match dataIndex? i with
  | some k => .ok (s.slot k)
  | none => .error (.dataAccess i)

/-- `MemWrite(addr, 1, v)`, the source's `setData`: performed in range, dropped in silence outside (20_memory.md R53). -/
def memWrite (s : State w) (i : Word w) (v : Word w) : State w :=
  match dataIndex? i with
  | some k => { s with data := Memory.set s.data k.val v, changedDataIndex := some k }
  | none => s

/-- `clearData` (20_memory.md R57). -/
def clearData (s : State w) : State w := { s with data := [], changedDataIndex := none }

/-! ## The code store -/

/-- The address decoder of the code store, `InCode(i)` (20_memory.md R50). -/
def inCode (s : State w) (i : Word w) : Bool := decide (0 ≤ i.toInt) && decide (i.toInt < s.codeSize)

/-- `CodeRead(i)`, the source's `getCode` (20_memory.md R55). The inner `none` is never reached (Laws/Ops.lean). -/
def codeRead (s : State w) (i : Word w) : Except (Fault w) (CodeEntry w) :=
  if inCode s i then
    match s.code[i.toInt.toNat]? with
    | some e => .ok e
    | none => .error (.codeAccess i)
  else .error (.codeAccess i)

/-- `CodeWrite(i, opcode, arg)`, the source's `setCode`: replaces an entry, never extends the store (20_memory.md R56). -/
def codeWrite (s : State w) (i : Word w) (e : CodeEntry w) : Effect w :=
  if inCode s i then .ok { s with code := s.code.set i.toInt.toNat e } else .error (.codeAccess i)

/-- `addCode(opcode, arg)`: append, dropped in silence once the store is full (20_memory.md R54). -/
def addCode (s : State w) (e : CodeEntry w) : State w :=
  if s.codeSize < Config.codeCap then { s with code := s.code ++ [e] } else s

/-- `clearCode` (20_memory.md R57). -/
def clearCode (s : State w) : State w := { s with code := [] }

/-- `clear()`, the only reset (70_reset_and_hazards.md R280). -/
def clear (s : State w) : State w :=
  clearCode (clearData { s with acc := 0, pc := 0, halted := false })

/-! ## The program counter -/

/-- `wrap_W(pc + 1)` (40_fetch_decode_dispatch.md R154). -/
def nextPc (pc : Word w) : Word w := wrap (pc.toInt + 1)

/-- The last action of every effect but those of JUMP, JMPZ and HALT (40_fetch_decode_dispatch.md R154). -/
def advance (s : State w) : State w := { s with pc := nextPc s.pc }

/-- `acc <- v`, then the `pc` increment. -/
def writeAcc (s : State w) (v : Word w) : State w := advance { s with acc := v }

/-! ## Faults and the end of a step -/

/-- Fault entry: every write of the step is discarded and `halted` is set; nothing is saved and control goes nowhere
(60_exceptions.md R246). There is no return from it (R253). `s` is the state as the step began. -/
def faultEntry (s : State w) : State w := { s with halted := true }

/-- The state after a step that began in `s` and whose effect yielded `e`: a fault is a next state (60_exceptions.md R246;
log 3). -/
def concludeState (s : State w) : Effect w → State w
  | .ok t => t
  | .error _ => faultEntry s

/-- The outcome of an instruction on the host's interface. -/
def conclude (s : State w) (e : Effect w) : Outcome w := .next (concludeState s e)

/-- The new state with the two outputs: `haltSignal` is whether the instruction is HALT; a fault asserts the signal too
(40_fetch_decode_dispatch.md R150, 60_exceptions.md R246, R248). -/
def concludeReport (s : State w) (isHalt : Bool) : Effect w → StepReport w
  | .ok t => ⟨t, .done, isHalt⟩
  | .error f => ⟨faultEntry s, .fault f, true⟩

end Sys2Proof.Machine
end

