-- ==== Sys2Proof/Machine/Flags.lean ====
section
/-! DEFINITION. The machine has no status flags (10_state.md R24). What takes their place: truth values as integers
(00_scope.md R11) and the tests the logic, compare and JMPZ instructions make. -/

namespace Sys2Proof.Machine

variable {w : Nat}

/-- The integer a truth value is written as: 1 for true, 0 for false (00_scope.md R11). -/
def truthWord (b : Bool) : Word w := if b then 1 else 0

/-- An integer read as a truth value: non-zero is true (00_scope.md R11). -/
def isNonZero (x : Word w) : Bool := x != 0

/-- The test of NOT, CMPZ and JMPZ (45_logic_compare.md R220, R223, 43_control_transfer.md R201). -/
def isZero (x : Word w) : Bool := x == 0

/-- The signed test of CMPL (45_logic_compare.md R222, 42_arithmetic.md R181). -/
def isNegative (x : Word w) : Bool := decide (x.toInt < 0)

end Sys2Proof.Machine
end

