-- ==== Sys2Proof/Machine/Operands.lean ====
section
/-! DEFINITION. The `addressing_mode_mux`: operand value, store address and jump target (40_fetch_decode_dispatch.md R155 to
R160), and the list of data accesses a form makes (R159). The mux writes nothing. -/

namespace Sys2Proof.Machine

variable {w : Nat}

/-- `Operand(flags, a)` (40_fetch_decode_dispatch.md R156). The special arm is never reached: flags 6 is illegal for every
mnemonic of the path; it answers the decoder's own fault (log 12). -/
def operand (mode : AddrMode) (a : Word w) (s : State w) : Except (Fault w) (Word w) :=
  match mode with
  | .direct => memRead s a
  | .immediate => .ok a
  | .indirect =>
    match memRead s a with
    | .ok i => memRead s i
    | .error f => .error f
  | .special => .error (.illegalInstruction mode.bits)

/-- `StoreAddr(flags, a)` (40_fetch_decode_dispatch.md R157). The immediate and special arms are never reached: illegal for
STO (log 12). -/
def storeAddr (mode : AddrMode) (a : Word w) (s : State w) : Except (Fault w) (Word w) :=
  match mode with
  | .direct => .ok a
  | .immediate => .error (.illegalInstruction mode.bits)
  | .indirect => memRead s a
  | .special => .error (.illegalInstruction mode.bits)

/-- `JumpTarget(flags, a, pc)`, `pc` being the index of the jump itself (40_fetch_decode_dispatch.md R158). -/
def jumpTarget (mode : AddrMode) (a : Word w) (pc : Word w) (s : State w) : Except (Fault w) (Word w) :=
  match mode with
  | .direct => .ok (addW pc a)
  | .immediate => .ok a
  | .indirect =>
    match memRead s a with
    | .ok x => .ok (addW pc x)
    | .error f => .error f
  | .special => memRead s a

/-- The mux as one block: its one output value, none on the path that computes nothing (40_fetch_decode_dispatch.md R155,
R160). -/
def mux (path : Path) (mode : AddrMode) (a : Word w) (pc : Word w) (s : State w) : Except (Fault w) (Option (Word w)) :=
  match path with
  | .none => .ok Option.none
  | .value => (operand mode a s).map some
  | .store => (storeAddr mode a s).map some
  | .target => (jumpTarget mode a pc s).map some

/-- One access of a step to the data store (40_fetch_decode_dispatch.md R159): a checked read or a droppable write of the
slot an index names. -/
inductive Access (w : Nat := Config.width) where
  | read (i : Word w)
  | write (i : Word w)
  deriving DecidableEq, Repr

/-- The pointer read, then the access through the pointer when the pointer read did not fault. -/
def accessesThrough (mk : Word w → Access w) (a : Word w) (s : State w) : List (Access w) :=
  match memRead s a with
  | .ok i => [.read a, mk i]
  | .error _ => [.read a]

/-- The data accesses an instruction makes, in order (40_fetch_decode_dispatch.md R159). -/
def accesses (i : Instr w) (s : State w) : List (Access w) :=
  match i.mnemonic.path, i.mode with
  | .none, _ => []
  | .value, .direct => [.read i.arg]
  | .value, .immediate => []
  | .value, .indirect => accessesThrough .read i.arg s
  | .value, .special => []
  | .store, .direct => [.write i.arg]
  | .store, .immediate => []
  | .store, .indirect => accessesThrough .write i.arg s
  | .store, .special => []
  | .target, .direct => []
  | .target, .immediate => []
  | .target, .indirect => if i.mnemonic = .jmpz ∧ s.acc ≠ 0 then [] else [.read i.arg]
  | .target, .special => if i.mnemonic = .jmpz ∧ s.acc ≠ 0 then [] else [.read i.arg]

end Sys2Proof.Machine
end

