-- ==== Sys2Proof/Machine/Arithmetic.lean ====
section
/-! DEFINITION. ADD, SUB, MUL, DIV (42_arithmetic.md). -/

namespace Sys2Proof.Machine

variable {w : Nat}

/-- The shape of the arithmetic and logic effects with an operand: the operand is obtained, `acc` receives `f acc operand`,
`pc` is incremented; an operand that faults writes nothing (42_arithmetic.md R183, 45_logic_compare.md R221). -/
def operandEffect (f : Word w → Word w → Word w) (mode : AddrMode) (a : Word w) (s : State w) : Effect w :=
  match operand mode a s with
  | .ok x => .ok (writeAcc s (f s.acc x))
  | .error e => .error e

/-- `Effect(ADD, flags, a)` (42_arithmetic.md R183). -/
def effectAdd (mode : AddrMode) (a : Word w) (s : State w) : Effect w := operandEffect addW mode a s

/-- `Effect(SUB, flags, a)`: accumulator minus operand (42_arithmetic.md R184). -/
def effectSub (mode : AddrMode) (a : Word w) (s : State w) : Effect w := operandEffect subW mode a s

/-- `Effect(MUL, flags, a)` (42_arithmetic.md R185). -/
def effectMul (mode : AddrMode) (a : Word w) (s : State w) : Effect w := operandEffect mulW mode a s

/-- `Effect(DIV, flags, a)`: the zero test is the first thing done with the operand (42_arithmetic.md R186). -/
def effectDiv (mode : AddrMode) (a : Word w) (s : State w) : Effect w :=
  match operand mode a s with
  | .ok x => if x = 0 then .error .divideByZero else .ok (writeAcc s (divW s.acc x))
  | .error e => .error e

/-- ADD direct (R183). -/
def execAddDirect (a : Word w) (s : State w) : Outcome w :=
  conclude s (effectAdd .direct a s)

/-- ADD immediate (R183). -/
def execAddImmediate (a : Word w) (s : State w) : Outcome w :=
  conclude s (effectAdd .immediate a s)

/-- ADD indirect (R183). -/
def execAddIndirect (a : Word w) (s : State w) : Outcome w :=
  conclude s (effectAdd .indirect a s)

/-- SUB direct (R184). -/
def execSubDirect (a : Word w) (s : State w) : Outcome w :=
  conclude s (effectSub .direct a s)

/-- SUB immediate (R184). -/
def execSubImmediate (a : Word w) (s : State w) : Outcome w :=
  conclude s (effectSub .immediate a s)

/-- SUB indirect (R184). -/
def execSubIndirect (a : Word w) (s : State w) : Outcome w :=
  conclude s (effectSub .indirect a s)

/-- MUL direct (R185). -/
def execMulDirect (a : Word w) (s : State w) : Outcome w :=
  conclude s (effectMul .direct a s)

/-- MUL immediate (R185). -/
def execMulImmediate (a : Word w) (s : State w) : Outcome w :=
  conclude s (effectMul .immediate a s)

/-- MUL indirect (R185). -/
def execMulIndirect (a : Word w) (s : State w) : Outcome w :=
  conclude s (effectMul .indirect a s)

/-- DIV direct (R186). -/
def execDivDirect (a : Word w) (s : State w) : Outcome w :=
  conclude s (effectDiv .direct a s)

/-- DIV immediate (R186). -/
def execDivImmediate (a : Word w) (s : State w) : Outcome w :=
  conclude s (effectDiv .immediate a s)

/-- DIV indirect (R186). -/
def execDivIndirect (a : Word w) (s : State w) : Outcome w :=
  conclude s (effectDiv .indirect a s)

end Sys2Proof.Machine
end

