-- ==== Sys2Proof/Machine/Control.lean ====
section
/-! DEFINITION. JUMP and JMPZ (43_control_transfer.md). -/

namespace Sys2Proof.Machine

variable {w : Nat}

/-- `Effect(JUMP, flags, a)`: the only write is the target into `pc` (43_control_transfer.md R200). -/
def effectJump (mode : AddrMode) (a : Word w) (s : State w) : Effect w :=
  match jumpTarget mode a s.pc s with
  | .ok t => .ok { s with pc := t }
  | .error e => .error e

/-- `Effect(JMPZ, flags, a)`: as JUMP when `acc` is 0, else `pc + 1` with no operand evaluated (43_control_transfer.md
R201). -/
def effectJmpz (mode : AddrMode) (a : Word w) (s : State w) : Effect w :=
  if isZero s.acc then
    match jumpTarget mode a s.pc s with
    | .ok t => .ok { s with pc := t }
    | .error e => .error e
  else .ok (advance s)

/-- JUMP direct (R200). -/
def execJumpDirect (a : Word w) (s : State w) : Outcome w :=
  conclude s (effectJump .direct a s)

/-- JUMP immediate (R200). -/
def execJumpImmediate (a : Word w) (s : State w) : Outcome w :=
  conclude s (effectJump .immediate a s)

/-- JUMP indirect (R200). -/
def execJumpIndirect (a : Word w) (s : State w) : Outcome w :=
  conclude s (effectJump .indirect a s)

/-- JUMP special (R200). -/
def execJumpSpecial (a : Word w) (s : State w) : Outcome w :=
  conclude s (effectJump .special a s)

/-- JMPZ direct (R201). -/
def execJmpzDirect (a : Word w) (s : State w) : Outcome w :=
  conclude s (effectJmpz .direct a s)

/-- JMPZ immediate (R201). -/
def execJmpzImmediate (a : Word w) (s : State w) : Outcome w :=
  conclude s (effectJmpz .immediate a s)

/-- JMPZ indirect (R201). -/
def execJmpzIndirect (a : Word w) (s : State w) : Outcome w :=
  conclude s (effectJmpz .indirect a s)

/-- JMPZ special (R201). -/
def execJmpzSpecial (a : Word w) (s : State w) : Outcome w :=
  conclude s (effectJmpz .special a s)

end Sys2Proof.Machine
end

