-- ==== Sys2Proof/Machine/LoadStore.lean ====
section
/-! DEFINITION. LOD and STO (44_load_store.md). -/

namespace Sys2Proof.Machine

variable {w : Nat}

/-- `Effect(LOD, flags, a)`: the old `acc` is not read (44_load_store.md R210). -/
def effectLod (mode : AddrMode) (a : Word w) (s : State w) : Effect w :=
  match operand mode a s with
  | .ok x => .ok (writeAcc s x)
  | .error e => .error e

/-- `Effect(STO, flags, a)`: the write is performed in range and dropped in silence outside; `pc` is incremented either way
(44_load_store.md R211). -/
def effectSto (mode : AddrMode) (a : Word w) (s : State w) : Effect w :=
  match storeAddr mode a s with
  | .ok t => .ok (advance (memWrite s t s.acc))
  | .error e => .error e

/-- LOD direct (R210). -/
def execLodDirect (a : Word w) (s : State w) : Outcome w :=
  conclude s (effectLod .direct a s)

/-- LOD immediate (R210). -/
def execLodImmediate (a : Word w) (s : State w) : Outcome w :=
  conclude s (effectLod .immediate a s)

/-- LOD indirect (R210). -/
def execLodIndirect (a : Word w) (s : State w) : Outcome w :=
  conclude s (effectLod .indirect a s)

/-- STO direct (R211). -/
def execStoDirect (a : Word w) (s : State w) : Outcome w :=
  conclude s (effectSto .direct a s)

/-- STO indirect (R211). -/
def execStoIndirect (a : Word w) (s : State w) : Outcome w :=
  conclude s (effectSto .indirect a s)

end Sys2Proof.Machine
end

