-- ==== Sys2Proof/Machine/Logic.lean ====
section
/-! DEFINITION. NOT, AND, CMPL, CMPZ (45_logic_compare.md): logical, not bitwise. -/

namespace Sys2Proof.Machine

variable {w : Nat}

/-- `Effect(NOT, 0, a)` (45_logic_compare.md R220). -/
def effectNot (_a : Word w) (s : State w) : Effect w := .ok (writeAcc s (truthWord (isZero s.acc)))

/-- `Effect(AND, flags, a)`: the operand is read whatever `acc` holds (45_logic_compare.md R221). -/
def effectAnd (mode : AddrMode) (a : Word w) (s : State w) : Effect w :=
  match operand mode a s with
  | .ok x => .ok (writeAcc s (truthWord (isNonZero s.acc && isNonZero x)))
  | .error e => .error e

/-- `Effect(CMPL, 0, a)`: tests the slot, signed, not the accumulator (45_logic_compare.md R222). -/
def effectCmpl (a : Word w) (s : State w) : Effect w :=
  match memRead s a with
  | .ok x => .ok (writeAcc s (truthWord (isNegative x)))
  | .error e => .error e

/-- `Effect(CMPZ, 0, a)`: tests the slot, not the accumulator (45_logic_compare.md R223). -/
def effectCmpz (a : Word w) (s : State w) : Effect w :=
  match memRead s a with
  | .ok x => .ok (writeAcc s (truthWord (isZero x)))
  | .error e => .error e

/-- NOT (R220). -/
def execNot (a : Word w) (s : State w) : Outcome w := conclude s (effectNot a s)

/-- AND direct (R221). -/
def execAndDirect (a : Word w) (s : State w) : Outcome w :=
  conclude s (effectAnd .direct a s)

/-- AND immediate (R221). -/
def execAndImmediate (a : Word w) (s : State w) : Outcome w :=
  conclude s (effectAnd .immediate a s)

/-- CMPL (R222). -/
def execCmpl (a : Word w) (s : State w) : Outcome w := conclude s (effectCmpl a s)

/-- CMPZ (R223). -/
def execCmpz (a : Word w) (s : State w) : Outcome w := conclude s (effectCmpz a s)

end Sys2Proof.Machine
end

