-- ==== Sys2Proof/Machine/System.lean ====
section
/-! DEFINITION. NOP and HALT (41_nop_halt.md). -/

namespace Sys2Proof.Machine

variable {w : Nat}

/-- `Effect(NOP, 0, a)` (41_nop_halt.md R170). -/
def effectNop (_a : Word w) (s : State w) : Effect w := .ok (advance s)

/-- `Effect(HALT, 0, a)`: the run state is set and `pc` is not written; the signal is an output (41_nop_halt.md R171,
`effectReport`). -/
def effectHalt (_a : Word w) (s : State w) : Effect w := .ok { s with halted := true }

/-- NOP (R170). -/
def execNop (a : Word w) (s : State w) : Outcome w := conclude s (effectNop a s)

/-- HALT (R171). -/
def execHalt (a : Word w) (s : State w) : Outcome w := conclude s (effectHalt a s)

end Sys2Proof.Machine
end

