-- ==== Sys2Proof/Machine/Dispatch.lean ====
section
/-! DEFINITION. The dispatch of a decoded instruction to its meaning (40_fetch_decode_dispatch.md R153). -/

namespace Sys2Proof.Machine

def exec (i : Instr) (s : State) : Host.Outcome State Fault Refusal :=
  match i with
  | .nop a => Sys2Proof.Machine.execNop a s
  | .addDirect a => Sys2Proof.Machine.execAddDirect a s
  | .addImmediate a => Sys2Proof.Machine.execAddImmediate a s
  | .addIndirect a => Sys2Proof.Machine.execAddIndirect a s
  | .subDirect a => Sys2Proof.Machine.execSubDirect a s
  | .subImmediate a => Sys2Proof.Machine.execSubImmediate a s
  | .subIndirect a => Sys2Proof.Machine.execSubIndirect a s
  | .mulDirect a => Sys2Proof.Machine.execMulDirect a s
  | .mulImmediate a => Sys2Proof.Machine.execMulImmediate a s
  | .mulIndirect a => Sys2Proof.Machine.execMulIndirect a s
  | .divDirect a => Sys2Proof.Machine.execDivDirect a s
  | .divImmediate a => Sys2Proof.Machine.execDivImmediate a s
  | .divIndirect a => Sys2Proof.Machine.execDivIndirect a s
  | .halt a => Sys2Proof.Machine.execHalt a s
  | .jumpDirect a => Sys2Proof.Machine.execJumpDirect a s
  | .jumpImmediate a => Sys2Proof.Machine.execJumpImmediate a s
  | .jumpIndirect a => Sys2Proof.Machine.execJumpIndirect a s
  | .jumpSpecial a => Sys2Proof.Machine.execJumpSpecial a s
  | .jmpzDirect a => Sys2Proof.Machine.execJmpzDirect a s
  | .jmpzImmediate a => Sys2Proof.Machine.execJmpzImmediate a s
  | .jmpzIndirect a => Sys2Proof.Machine.execJmpzIndirect a s
  | .jmpzSpecial a => Sys2Proof.Machine.execJmpzSpecial a s
  | .lodDirect a => Sys2Proof.Machine.execLodDirect a s
  | .lodImmediate a => Sys2Proof.Machine.execLodImmediate a s
  | .lodIndirect a => Sys2Proof.Machine.execLodIndirect a s
  | .stoDirect a => Sys2Proof.Machine.execStoDirect a s
  | .stoIndirect a => Sys2Proof.Machine.execStoIndirect a s
  | .not a => Sys2Proof.Machine.execNot a s
  | .andDirect a => Sys2Proof.Machine.execAndDirect a s
  | .andImmediate a => Sys2Proof.Machine.execAndImmediate a s
  | .cmpl a => Sys2Proof.Machine.execCmpl a s
  | .cmpz a => Sys2Proof.Machine.execCmpz a s

end Sys2Proof.Machine
end

