-- ==== Sys2Proof/Machine/Fetch.lean ====
section
/-! DEFINITION. Fetch and decode (40_fetch_decode_dispatch.md R151, R152), and the placing of an entry where the next step
fetches. -/

namespace Sys2Proof.Machine

variable {w : Nat}

/-- The fault of a decoder's refusal (40_fetch_decode_dispatch.md R150). -/
def faultOfDecode : DecodeFault → Fault w
  | .parity opcode => .parity opcode
  | .unassignedOpcode base => .unassignedOpcode base
  | .illegalInstruction mode => .illegalInstruction mode

/-- The instruction of this step: `code[pc]` read whole, its opcode decoded; else the fault, Code-Access first
(40_fetch_decode_dispatch.md R151, R152). `halted` is not looked at (60_exceptions.md R250). -/
def fetchDecode (om : OpMap) (s : State w) : Except (Fault w) (Instr w) :=
  match codeRead s s.pc with
  | .error f => .error f
  | .ok e =>
    match decodeEntry om e with
    | .ok i => .ok i
    | .error f => .error (faultOfDecode f)

/-- `s` with an entry where the next step fetches: the entry at `pc` replaced; at the end of the store, appended; with `pc`
elsewhere, `pc` set to 0 and the entry put there (DESIGN CHOICE, safe, log 7). It stands for the host's loading of a
program (70_reset_and_hazards.md R283) and is used by the host of this package only. -/
def placeAtFetch (s : State w) (e : CodeEntry w) : State w :=
  if inCode s s.pc then { s with code := s.code.set s.pc.toInt.toNat e }
  else if s.pc.toInt = s.codeSize ∧ s.codeSize < Config.codeCap then { s with code := s.code ++ [e] }
  else { s with pc := 0, code := e :: s.code.tail }

end Sys2Proof.Machine
end

