-- ==== Sys2Proof/Machine/Report.lean ====
section
/-! DEFINITION. A step with its two outputs, `result` and `halt_signal` (40_fetch_decode_dispatch.md R150, 60_exceptions.md
R246, R248): what `exec` and `step` say of the state alone. -/

namespace Sys2Proof.Machine

variable {w : Nat}

/-- `Effect(m, flags, a)` of an instruction, the fault it raises included (40_fetch_decode_dispatch.md R153). -/
def effect (i : Instr w) (s : State w) : Effect w :=
  match i with
  | .nop a => effectNop a s
  | .addDirect a => effectAdd .direct a s
  | .addImmediate a => effectAdd .immediate a s
  | .addIndirect a => effectAdd .indirect a s
  | .subDirect a => effectSub .direct a s
  | .subImmediate a => effectSub .immediate a s
  | .subIndirect a => effectSub .indirect a s
  | .mulDirect a => effectMul .direct a s
  | .mulImmediate a => effectMul .immediate a s
  | .mulIndirect a => effectMul .indirect a s
  | .divDirect a => effectDiv .direct a s
  | .divImmediate a => effectDiv .immediate a s
  | .divIndirect a => effectDiv .indirect a s
  | .halt a => effectHalt a s
  | .jumpDirect a => effectJump .direct a s
  | .jumpImmediate a => effectJump .immediate a s
  | .jumpIndirect a => effectJump .indirect a s
  | .jumpSpecial a => effectJump .special a s
  | .jmpzDirect a => effectJmpz .direct a s
  | .jmpzImmediate a => effectJmpz .immediate a s
  | .jmpzIndirect a => effectJmpz .indirect a s
  | .jmpzSpecial a => effectJmpz .special a s
  | .lodDirect a => effectLod .direct a s
  | .lodImmediate a => effectLod .immediate a s
  | .lodIndirect a => effectLod .indirect a s
  | .stoDirect a => effectSto .direct a s
  | .stoIndirect a => effectSto .indirect a s
  | .not a => effectNot a s
  | .andDirect a => effectAnd .direct a s
  | .andImmediate a => effectAnd .immediate a s
  | .cmpl a => effectCmpl a s
  | .cmpz a => effectCmpz a s

/-- The outcome of a decoded instruction, at any width: what `exec` is at the default width (Laws/Dispatch.lean). -/
def execAt (i : Instr w) (s : State w) : Outcome w := conclude s (effect i s)

/-- The instruction of the halting mnemonic, whose step asserts `halt_signal` (41_nop_halt.md R171). -/
def isHalt (i : Instr w) : Bool := i.mnemonic == .halt

/-- The execution of a decoded instruction with the outputs of its step. -/
def effectReport (i : Instr w) (s : State w) : StepReport w := concludeReport s (isHalt i) (effect i s)

/-- `step()`, the whole algorithm of 40_fetch_decode_dispatch.md R150, for a given `OPMAP`. -/
def stepReportWith (om : OpMap) (s : State w) : StepReport w :=
  match fetchDecode om s with
  | .ok i => effectReport i s
  | .error f => concludeReport s false (.error f)

/-- `step()` under the default `OPMAP` and width. -/
def stepReport (s : State) : StepReport := stepReportWith Config.opMap s

end Sys2Proof.Machine
end

