-- ==== Sys2Proof/Machine/Step.lean ====
section
/-! DEFINITION. The step on the host's interface. -/

namespace Sys2Proof.Machine

/-- `step()` for a given width and `OPMAP`: fetch, decode, execute; a fault of fetch or decode enters HALTED
(40_fetch_decode_dispatch.md R150, 60_exceptions.md R246). Its outputs are in Machine/Report.lean. -/
def stepWith {w : Nat} (om : OpMap) (s : State w) : Outcome w :=
  match fetchDecode om s with
  | .ok i => execAt i s
  | .error f => conclude s (.error f)

/-- `step()` under the default width and `OPMAP`. -/
def step (s : State) : Host.Outcome State Fault Refusal :=
  match fetchDecode Config.opMap s with
  | .ok i => exec i s
  | .error f => conclude s (.error f)

/-- `s` with the instruction of a row's bits where the next step fetches (log 6, log 7). -/
def State.withFetchWord (s : State) (nbits w : Nat) : State := placeAtFetch s (entryOfBits nbits w)

end Sys2Proof.Machine
end

