-- ==== Sys2Proof/Machine/Assembler.lean ====
section
/-! DEFINITION. The assembler: source syntax, the validating pass, the loading pass (30_encoding.md R110 to R132). It is
toolchain and holds no hardware state (00_scope.md R4); it is the only defined loader. A source is a list of bytes, UTF-8
(R110), read as characters and then as lines (log 9). -/

namespace Sys2Proof.Machine

variable {w : Nat}

/-- One line of a source text (30_encoding.md R110). -/
abbrev Line : Type := List Char

/-- The two sections of a source (30_encoding.md R110). -/
inductive SourceMode where
  | code | data
  deriving DecidableEq, Repr

/-- The message categories (30_encoding.md R121 to R129). -/
inductive Message where
  | illegalBlankLine | leadingWhitespace | secondData | dataNotUppercase | mnemonicNotUppercase | invalidMnemonic
  | tooManyArgs | tooFewArgs | illegalPrefix | notHex
  | dataBothBad | dataAddrBad | dataValueBad | dataValueMissing | dataTooMany
  deriving DecidableEq, Repr

/-- The texts the source quotes; the others are absent (30_encoding.md R129). -/
def Message.text : Message → Option String
  | .illegalBlankLine => some "Illegal blank line"
  | .dataNotUppercase => some "DATA not in all uppercase"
  | .mnemonicNotUppercase => some "Mnemonic not in all uppercase"
  | .invalidMnemonic => some "Invalid mnemonic"
  | .leadingWhitespace => none
  | .secondData => none
  | .tooManyArgs => none
  | .tooFewArgs => none
  | .illegalPrefix => none
  | .notHex => none
  | .dataBothBad => none
  | .dataAddrBad => none
  | .dataValueBad => none
  | .dataValueMissing => none
  | .dataTooMany => none

/-- The number of the offending line and its message; lines count from 1 (30_encoding.md R111, R120). -/
structure Diagnostic where
  line : Nat
  message : Message
  deriving DecidableEq, Repr

/-- What a legal line loads: an instruction, or a data pair (30_encoding.md R131). -/
inductive Item (w : Nat := Config.width) where
  | code (m : Mnemonic) (mode : AddrMode) (a : Word w)
  | data (address value : Word w)
  deriving DecidableEq, Repr

/-! ## The bytes of a source as characters: "UTF-8 text" (30_encoding.md R110). The code itself is the Unicode standard's
(PRESUMED, log 9) -/

/-- A character being read: its value so far, how many bytes of it are to come, and the least code point that its number of
bytes may encode. -/
structure Utf8Sequence where
  value : Nat
  more : Nat
  least : Nat
  deriving DecidableEq, Repr

/-- The first byte of a character: its leading ones tell how many bytes follow. -/
def utf8Lead? (b : BitVec 8) : Option Utf8Sequence :=
  if b.toNat < 0x80 then some ⟨b.toNat, 0, 0⟩
  else if b.toNat < 0xC0 then none
  else if b.toNat < 0xE0 then some ⟨b.toNat - 0xC0, 1, 0x80⟩
  else if b.toNat < 0xF0 then some ⟨b.toNat - 0xE0, 2, 0x800⟩
  else if b.toNat < 0xF8 then some ⟨b.toNat - 0xF0, 3, 0x10000⟩
  else none

/-- A further byte of a character: `10` and six bits of the value. -/
def utf8Continue? (q : Utf8Sequence) (b : BitVec 8) : Option Utf8Sequence :=
  if 0x80 ≤ b.toNat ∧ b.toNat < 0xC0 then some ⟨64 * q.value + (b.toNat - 0x80), q.more - 1, q.least⟩ else none

/-- The character of a whole sequence; none for an overlong one, a surrogate, a value above 10FFFF. -/
def Utf8Sequence.char? (q : Utf8Sequence) : Option Char :=
  if q.least ≤ q.value ∧ q.value.isValidChar then some (Char.ofNat q.value) else none

/-- The characters of a list of bytes, `pending` being the character being read; none when the bytes are not UTF-8. -/
def utf8From (pending : Option Utf8Sequence) : List (BitVec 8) → Option (List Char)
  | [] => if pending.isNone then some [] else none
  | b :: rest =>
    (pending.elim (utf8Lead? b) fun q => utf8Continue? q b).bind fun q =>
      if q.more = 0 then q.char?.bind fun c => (utf8From none rest).map fun cs => c :: cs
      else utf8From (some q) rest

/-- The characters of a source; none when its bytes are not UTF-8. -/
def utf8Decode (source : List (BitVec 8)) : Option (List Char) := utf8From none source

/-- The lines of a text, separated by line feeds (DESIGN CHOICE, unsafe for texts only, log 9); `cur` is the line being
read, reversed. -/
def linesFrom (cur : Line) : List Char → List Line
  | [] => [cur.reverse]
  | c :: cs => if c = '\n' then cur.reverse :: linesFrom [] cs else linesFrom (c :: cur) cs

/-- The lines of a text. -/
def sourceLines (text : List Char) : List Line := linesFrom [] text

/-! ## Lexical conventions (30_encoding.md R111) -/

/-- A space or a tab. -/
def isSpace (c : Char) : Bool := c == ' ' || c == '\t'

/-- Empty, or only spaces and tabs. -/
def isBlank (l : Line) : Bool := l.all isSpace

/-- The maximal runs of characters other than space and tab; `cur` is the run being read, reversed. -/
def tokensFrom (cur : List Char) : Line → List (List Char)
  | [] => if cur.isEmpty then [] else [cur.reverse]
  | c :: cs =>
    if isSpace c then (if cur.isEmpty then tokensFrom [] cs else cur.reverse :: tokensFrom [] cs)
    else tokensFrom (c :: cur) cs

/-- The tokens of a line. -/
def tokens (l : Line) : List (List Char) := tokensFrom [] l

/-- The upper-case form of an ASCII letter, every other character itself (DESIGN CHOICE, unsafe for texts only, log 10). -/
def upperChar (c : Char) : Char :=
  (("abcdefghijklmnopqrstuvwxyz".toList.zip "ABCDEFGHIJKLMNOPQRSTUVWXYZ".toList).lookup c).getD c

/-- Equal when case is ignored. -/
def sameIgnoringCase (s t : List Char) : Bool := s.map upperChar == t.map upperChar

/-- The hex digits with their values: `0-9`, `A-F` and `a-f`. -/
def hexTable : List (Char × Nat) := "0123456789ABCDEF".toList.zipIdx ++ "abcdef".toList.zipIdx 10

/-- The value of a run of hex digits read after digits of value `high`; none when a character is no hex digit. -/
def hexValue? (high : Nat) : List Char → Option Nat
  | [] => some high
  | c :: cs => (hexTable.lookup c).bind fun digit => hexValue? (16 * high + digit) cs

/-- One or more hex digits. -/
def hexMagnitude? (ds : List Char) : Option Nat := if ds.isEmpty then none else hexValue? 0 ds

/-- The members of `Int_W` (00_scope.md R8). -/
def inIntW (w : Nat) (z : Int) : Bool := decide (-(2 : Int) ^ (w - 1) ≤ z) && decide (z < (2 : Int) ^ (w - 1))

/-- An integer as a word, none when it is outside `Int_W`. -/
def wordOfInt? (z : Int) : Option (Word w) := if inIntW w z then some (wrap z) else none

/-- A hex number: an optional minus sign, hex digits, a value within `Int_W`. -/
def hexNumber? : List Char → Option (Word w)
  | '-' :: ds => (hexMagnitude? ds).bind fun n => wordOfInt? (-(n : Int))
  | ds => (hexMagnitude? ds).bind fun n => wordOfInt? n

/-! ## The mnemonics and their derived sets -/

/-- A mnemonic as written in a source. -/
def mnemonicText : Mnemonic → List Char
  | .nop => "NOP".toList
  | .add => "ADD".toList
  | .sub => "SUB".toList
  | .mul => "MUL".toList
  | .div => "DIV".toList
  | .halt => "HALT".toList
  | .jump => "JUMP".toList
  | .jmpz => "JMPZ".toList
  | .lod => "LOD".toList
  | .sto => "STO".toList
  | .not => "NOT".toList
  | .and => "AND".toList
  | .cmpl => "CMPL".toList
  | .cmpz => "CMPZ".toList

/-- The separator of the two sections. -/
def dataWord : List Char := "DATA".toList

/-- `ZERO_OPERAND`: the mnemonics whose effect uses no operand (30_encoding.md R100). -/
def zeroOperand (m : Mnemonic) : Bool := m.path == .none

/-- `IMM_ELIGIBLE` (30_encoding.md R100). -/
def immEligible (m : Mnemonic) : Bool := Legal m .immediate

/-- `IND_ELIGIBLE` (30_encoding.md R100). -/
def indEligible (m : Mnemonic) : Bool := Legal m .indirect

/-! ## One line -/

/-- The mode an argument's prefix selects, and the argument without it (30_encoding.md R125). -/
def splitPrefix : List Char → AddrMode × List Char
  | 'M' :: rest => (.immediate, rest)
  | 'N' :: rest => (.indirect, rest)
  | 'J' :: rest => (.special, rest)
  | rest => (.direct, rest)

/-- Whether the assembler accepts a prefix on a mnemonic: `J` is checked against the immediate-eligible set, on purpose
(30_encoding.md R125, R126). -/
def prefixAccepted (m : Mnemonic) : AddrMode → Bool
  | .direct => true
  | .immediate => immEligible m
  | .indirect => indEligible m
  | .special => immEligible m

/-- Categories 6 and 7 on the argument of a mnemonic (30_encoding.md R125, R127). -/
def argument (m : Mnemonic) (token : List Char) : Except Message (Item w) :=
  if prefixAccepted m (splitPrefix token).1 then
    match hexNumber? (splitPrefix token).2 with
    | some a => .ok (.code m (splitPrefix token).1 a)
    | none => .error .notHex
  else .error .illegalPrefix

/-- Category 5, then the argument; a zero-operand mnemonic is stored with `arg` 0 (30_encoding.md R124, R131). -/
def operands (m : Mnemonic) (args : List (List Char)) : Except Message (Item w) :=
  match args with
  | [] => if zeroOperand m then .ok (.code m .direct 0) else .error .tooFewArgs
  | [token] => if zeroOperand m then .error .tooManyArgs else argument m token
  | _ :: _ :: _ => .error .tooManyArgs

/-- Category 4, then the operands: a line of the CODE section, as its tokens (30_encoding.md R123). A line met here has a
token; the first arm is never reached. -/
def codeLine : List (List Char) → Except Message (Item w)
  | [] => .error .invalidMnemonic
  | t :: args =>
    match Mnemonic.all.find? fun m => mnemonicText m == t with
    | some m => operands m args
    | none =>
      if Mnemonic.all.any fun m => sameIgnoringCase (mnemonicText m) t then .error .mnemonicNotUppercase
      else .error .invalidMnemonic

/-- Category 8: a line of the DATA section, as its tokens; the address is not range-checked (30_encoding.md R128). -/
def dataLine : List (List Char) → Except Message (Item w)
  | [] => .error .dataValueMissing
  | [_] => .error .dataValueMissing
  | [x, v] =>
    match hexNumber? x, hexNumber? v with
    | some i, some w => .ok (.data i w)
    | none, some _ => .error .dataAddrBad
    | some _, none => .error .dataValueBad
    | none, none => .error .dataBothBad
  | _ :: _ :: _ :: _ => .error .dataTooMany

/-- Whether a line starts with a space or a tab. -/
def startsWithSpace : Line → Bool
  | [] => false
  | c :: _ => isSpace c

/-- A non-blank line: categories 2 and 3, then those of its section; `none` is the separator (30_encoding.md R122). -/
def checkLine (mode : SourceMode) (l : Line) : Except Message (Option (Item w)) :=
  if startsWithSpace l then .error .leadingWhitespace
  else
    match mode with
    | .code =>
      if tokens l = [dataWord] then .ok none
      else if (tokens l).length = 1 ∧ sameIgnoringCase (tokens l).flatten dataWord then .error .dataNotUppercase
      else (codeLine (tokens l)).map some
    | .data =>
      if tokens l = [dataWord] then .error .secondData
      else (dataLine (tokens l)).map some

/-! ## The two passes -/

/-- The validating pass from line number `n` on, after `blanks` blank lines in a row: stops at the first offending line; a
closed run of two or more blank lines is attributed to its first (30_encoding.md R120, R121). -/
def validateFrom (n blanks : Nat) (mode : SourceMode) : List Line → Except Diagnostic (List (Item w))
  | [] => .ok []
  | l :: rest =>
    if isBlank l then validateFrom (n + 1) (blanks + 1) mode rest
    else if 2 ≤ blanks then .error ⟨n - blanks, .illegalBlankLine⟩
    else
      match checkLine mode l with
      | .error m => .error ⟨n, m⟩
      | .ok none => validateFrom (n + 1) 0 .data rest
      | .ok (some item) =>
        match validateFrom (n + 1) 0 mode rest with
        | .ok items => .ok (item :: items)
        | .error d => .error d

/-- The validating pass of a source: what its lines load, in source order, or the first diagnostic. -/
def validate (text : List Line) : Except Diagnostic (List (Item w)) := validateFrom 1 0 .code text

/-- The loading of one item: an append or a data write, each with its silent limit (30_encoding.md R131). -/
def loadItem (om : OpMap) (s : State w) : Item w → State w
  | .code m mode a => addCode s (encodeForm om m mode a)
  | .data i v => memWrite s i v

/-- The second pass: the items loaded in source order; nothing is cleared first (30_encoding.md R131). -/
def load (om : OpMap) (items : List (Item w)) (s : State w) : State w := items.foldl (loadItem om) s

/-- The two passes on the lines of a text: the new state and the diagnostic, none on success; a failure changes nothing
(30_encoding.md R120). -/
def assembleLines (om : OpMap) (text : List Line) (s : State w) : State w × Option Diagnostic :=
  match validate text with
  | .ok items => (load om items s, none)
  | .error d => (s, some d)

/-- What `assemble` answers: the diagnostic of a text, none on success, or that the source is no text at all. -/
inductive AssembleResult where
  | text (diagnostic : Option Diagnostic)
  | notText
  deriving DecidableEq, Repr

/-- `assemble` on the bytes of a source (30_encoding.md R110, R120). Bytes that are not UTF-8 change nothing (DESIGN CHOICE,
unsafe for texts only, log 9). -/
def assemble (om : OpMap) (source : List (BitVec 8)) (s : State w) : State w × AssembleResult :=
  match utf8Decode source with
  | some text => ((assembleLines om (sourceLines text) s).1, .text (assembleLines om (sourceLines text) s).2)
  | none => (s, .notText)

/-- The first component of the result of a text: 0 on success, else the number of the offending line (30_encoding.md R120). -/
def resultLine : Option Diagnostic → Nat
  | none => 0
  | some d => d.line

end Sys2Proof.Machine
end

