-- ==== Sys2Proof/Machine/HostPorts.lean ====
section
/-! DEFINITION. Everything the host can do to the block (70_reset_and_hazards.md R285): the two agents' operations as one
type, each a whole, atomic transition (00_scope.md R14). -/

namespace Sys2Proof.Machine

variable {w : Nat}

/-- The operations the host issues besides `step` (70_reset_and_hazards.md R285). That the bounds `lo` and `hi` of the range
ports are words is the model's choice: the spec gives them no type (DESIGN CHOICE, unsafe for the replies of the range ports
at `W` = 10 only, log 11). -/
inductive Request (w : Nat := Config.width) where
  | clear
  | assemble (source : List (BitVec 8))
  | readAcc
  | readPc
  | readHalted
  | writeAcc (v : Word w)
  | writePc (v : Word w)
  | getData (i : Word w)
  | getDataRange (lo hi : Word w)
  | setData (i v : Word w)
  | getCode (i : Word w)
  | getCodeRange (lo hi : Word w)
  | setCode (i : Word w) (e : CodeEntry w)
  | addCode (e : CodeEntry w)
  | programSize
  | readChangedDataIndex
  deriving DecidableEq, Repr

/-- What an operation gives back to the host. A refusal of a port is a report with a fault's name and payload; it is no
fault of a step (20_memory.md R58, R61). -/
inductive Reply (w : Nat := Config.width) where
  | done
  | stepped (result : StepResult w) (haltSignal : Bool)
  | assembled (result : AssembleResult)
  | word (v : Word w)
  | words (vs : List (Word w))
  | bit (b : Bool)
  | entry (e : CodeEntry w)
  | entries (es : List (CodeEntry w))
  | size (n : Nat)
  | index (i : Option (Fin Config.dataSlots))
  | refused (f : Fault w)
  deriving DecidableEq, Repr

/-- The indices from `lo` up to and excluding `hi`, in order (20_memory.md R60). The rule gives the bounds no type; the model
takes words, so that at the admitted `W` = 10, whose largest word is 511, the bound 512 cannot be given and no data range
reaches slot 511 (DESIGN CHOICE, unsafe for the replies of the range ports at that width only, log 11). -/
def indexRange (lo hi : Word w) : List (Word w) :=
  (List.range (hi.toInt - lo.toInt).toNat).map fun (k : Nat) => wrap (lo.toInt + (k : Int))

/-- Single accesses in sequence, refused as a whole if any is, with the first refused index's report (20_memory.md R60;
which report is a DESIGN CHOICE, safe, log 11). -/
def readEach {α : Type} (port : Word w → Except (Fault w) α) : List (Word w) → Except (Fault w) (List α)
  | [] => .ok []
  | i :: rest =>
    match port i with
    | .error f => .error f
    | .ok x =>
      match readEach port rest with
      | .ok xs => .ok (x :: xs)
      | .error f => .error f

/-- `hostGetData` (20_memory.md R58). -/
def hostGetData (s : State w) (i : Word w) : Except (Fault w) (Word w) := memRead s i

/-- `hostGetDataRange` (20_memory.md R60). -/
def hostGetDataRange (s : State w) (lo hi : Word w) : Except (Fault w) (List (Word w)) :=
  readEach (hostGetData s) (indexRange lo hi)

/-- `hostSetData` (20_memory.md R59). -/
def hostSetData (s : State w) (i v : Word w) : State w := memWrite s i v

/-- `hostGetCode` (20_memory.md R61). -/
def hostGetCode (s : State w) (i : Word w) : Except (Fault w) (CodeEntry w) := codeRead s i

/-- `hostGetCodeRange` (20_memory.md R60). -/
def hostGetCodeRange (s : State w) (lo hi : Word w) : Except (Fault w) (List (CodeEntry w)) :=
  readEach (hostGetCode s) (indexRange lo hi)

/-- `hostSetCode`, replace (20_memory.md R61). -/
def hostSetCode (s : State w) (i : Word w) (e : CodeEntry w) : Effect w := codeWrite s i e

/-- `hostAddCode`, append (20_memory.md R61). -/
def hostAddCode (s : State w) (e : CodeEntry w) : State w := addCode s e

/-- A reading port's answer. -/
def replyOf {α : Type} (mk : α → Reply w) : Except (Fault w) α → Reply w
  | .ok x => mk x
  | .error f => .refused f

/-- A host request: the new state and the reply; a refused port changes nothing and does not halt (20_memory.md R58, R61,
10_state.md R32). -/
def serve (om : OpMap) (r : Request w) (s : State w) : State w × Reply w :=
  match r with
  | .clear => (clear s, .done)
  | .assemble source => ((assemble om source s).1, .assembled (assemble om source s).2)
  | .readAcc => (s, .word s.acc)
  | .readPc => (s, .word s.pc)
  | .readHalted => (s, .bit s.halted)
  | .writeAcc v => ({ s with acc := v }, .done)
  | .writePc v => ({ s with pc := v }, .done)
  | .getData i => (s, replyOf .word (hostGetData s i))
  | .getDataRange lo hi => (s, replyOf .words (hostGetDataRange s lo hi))
  | .setData i v => (hostSetData s i v, .done)
  | .getCode i => (s, replyOf .entry (hostGetCode s i))
  | .getCodeRange lo hi => (s, replyOf .entries (hostGetCodeRange s lo hi))
  | .setCode i e =>
    match hostSetCode s i e with
    | .ok t => (t, .done)
    | .error f => (s, .refused f)
  | .addCode e => (hostAddCode s e, .done)
  | .programSize => (s, .size s.codeSize)
  | .readChangedDataIndex => (s, .index s.changedDataIndex)

/-- An operation of either agent (00_scope.md R14). -/
inductive Operation (w : Nat := Config.width) where
  | step
  | host (r : Request w)
  deriving DecidableEq, Repr

/-- One operation: the new state and what the host receives. -/
def perform (om : OpMap) (op : Operation w) (s : State w) : State w × Reply w :=
  match op with
  | .step => ((stepReportWith om s).state, .stepped (stepReportWith om s).result (stepReportWith om s).haltSignal)
  | .host r => serve om r s

/-- An execution: operations in the order the host chooses (00_scope.md R14). -/
def performAll (om : OpMap) : List (Operation w) → State w → State w
  | [], s => s
  | op :: ops, s => performAll om ops (perform om op s).1

end Sys2Proof.Machine
end

