-- ==== Sys2Proof/Safety.lean ====
section
/-! DEFINITION. The terms claims are stated in: the state invariant, runs and their ends, what the assembler's code is, the
history of data writes. -/

namespace Sys2Proof.Machine

variable {w : Nat}

/-- The invariant of the state: the data store is in its canonical form, and the code store is within its capacity
(20_memory.md R51, R54; 10_state.md R20). -/
def State.wf (s : State w) : Prop := s.data.wf = true ∧ s.codeSize ≤ Config.codeCap

/-- An entry that decodes without a Parity or an Unassigned-Opcode fault (30_encoding.md R93, R101). -/
def assignedEntry (om : OpMap) (e : CodeEntry w) : Bool :=
  parityOk e.opcode && (mnemonicOf om (baseOpcode e.opcode)).isSome

/-- Every entry of the code store has even parity and an assigned base opcode, as all that the assembler stores has. -/
def State.codeAssigned (om : OpMap) (s : State w) : Prop := ∀ e ∈ s.code, assignedEntry om e = true

/-- An operation that puts no entry of the host's own making into the code store: a step, and every request but append and
replace (60_exceptions.md R241). -/
def Operation.keepsAssembled : Operation w → Bool
  | .step => true
  | .host (.setCode _ _) => false
  | .host (.addCode _) => false
  | .host .clear => true
  | .host (.assemble _) => true
  | .host .readAcc => true
  | .host .readPc => true
  | .host .readHalted => true
  | .host (.writeAcc _) => true
  | .host (.writePc _) => true
  | .host (.getData _) => true
  | .host (.getDataRange _ _) => true
  | .host (.setData _ _) => true
  | .host (.getCode _) => true
  | .host (.getCodeRange _ _) => true
  | .host .programSize => true
  | .host .readChangedDataIndex => true

/-- The slot a signed index names: the index is the slot's number, 0..511 (20_memory.md R50). -/
def NamesSlot (i : Word w) (k : Fin Config.dataSlots) : Prop := i.toInt = (k.val : Int)

/-- The index names no slot: it is negative or above 511 (20_memory.md R50). -/
def NamesNoSlot (i : Word w) : Prop := i.toInt < 0 ∨ 511 < i.toInt

/-- `x` is the operand of `a` in a mode: `D[a]`, `a`, `D[D[a]]`, with every index read in range; the special mode has none
(40_fetch_decode_dispatch.md R156). -/
def OperandIs (mode : AddrMode) (a : Word w) (s : State w) (x : Word w) : Prop :=
  match mode with
  | .direct => ∃ k, NamesSlot a k ∧ x = s.slot k
  | .immediate => x = a
  | .indirect => ∃ k j, NamesSlot a k ∧ NamesSlot (s.slot k) j ∧ x = s.slot j
  | .special => False

/-- The operand read of `a` in a mode meets an index out of range, `bad` being the first such index
(40_fetch_decode_dispatch.md R156). -/
def OperandFaults (mode : AddrMode) (a : Word w) (s : State w) (bad : Word w) : Prop :=
  match mode with
  | .direct => NamesNoSlot a ∧ bad = a
  | .immediate => False
  | .indirect => (NamesNoSlot a ∧ bad = a) ∨ ∃ k, NamesSlot a k ∧ NamesNoSlot (s.slot k) ∧ bad = s.slot k
  | .special => False

/-- `t` is the target of a jump in `s`, relative or absolute, by the argument or by the slot it names
(40_fetch_decode_dispatch.md R158). -/
def TargetIs (mode : AddrMode) (a : Word w) (s : State w) (t : Word w) : Prop :=
  match mode with
  | .direct => t = wrap (s.pc.toInt + a.toInt)
  | .immediate => t = a
  | .indirect => ∃ k, NamesSlot a k ∧ t = wrap (s.pc.toInt + (s.slot k).toInt)
  | .special => ∃ k, NamesSlot a k ∧ t = s.slot k

/-- `t` is the index STO stores to: `a` itself, or the content of the slot `a` names (40_fetch_decode_dispatch.md R157). -/
def StoreIndexIs (mode : AddrMode) (a : Word w) (s : State w) (t : Word w) : Prop :=
  match mode with
  | .direct => t = a
  | .immediate => False
  | .indirect => ∃ k, NamesSlot a k ∧ t = s.slot k
  | .special => False

/-- The entry the step fetches: `pc` is the index of an entry in use, and this is the entry (40_fetch_decode_dispatch.md
R151). -/
def Fetches (s : State w) (e : CodeEntry w) : Prop := ∃ k : Nat, s.pc.toInt = (k : Int) ∧ s.code[k]? = some e

/-- The first index out of range among the reads of a list of accesses (60_exceptions.md R249). -/
def firstBadRead : List (Access w) → Option (Word w)
  | [] => none
  | .write _ :: rest => firstBadRead rest
  | .read i :: rest => if (dataIndex? i).isSome then firstBadRead rest else some i

/-- The report of a fault raised by a step from `s`: nothing changes but `halted`, and the signal is asserted
(60_exceptions.md R246). -/
def faultReport (s : State w) (f : Fault w) : StepReport w := ⟨{ s with halted := true }, .fault f, true⟩

/-- The execution of `i` in `s` raises the fault `f` and does nothing else, at any width (60_exceptions.md R246). -/
def FaultsAt (i : Instr w) (s : State w) (f : Fault w) : Prop :=
  effectReport i s = faultReport s f ∧ execAt i s = .next { s with halted := true }

/-- The same of the host's interface, at the default width. -/
def FaultsWith (i : Instr) (s : State) (f : Fault) : Prop :=
  effectReport i s = faultReport s f ∧ exec i s = .next { s with halted := true }

/-- The prefix that selects a mode in a source text (30_encoding.md R125). -/
def prefixText : AddrMode → List Char
  | .direct => []
  | .immediate => ['M']
  | .indirect => ['N']
  | .special => ['J']

/-- The state after `n` steps with no host operation in between. -/
def stepsFrom (om : OpMap) : Nat → State w → State w
  | 0, s => s
  | n + 1, s => stepsFrom om n (stepReportWith om s).state

/-- The report of step number `n`, counted from 0, of the run from `s`. -/
def reportAt (om : OpMap) (s : State w) (n : Nat) : StepReport w := stepReportWith om (stepsFrom om n s)

/-- The run from `s` ends with step number `n`: the first whose `halt_signal` is 1 (60_exceptions.md R251). -/
def RunEndsAt (om : OpMap) (s : State w) (n : Nat) : Prop :=
  (reportAt om s n).haltSignal = true ∧ ∀ k < n, (reportAt om s k).haltSignal = false

/-- It ended normally: that step executed HALT (60_exceptions.md R251). -/
def RunEndsNormally (om : OpMap) (s : State w) (n : Nat) : Prop :=
  RunEndsAt om s n ∧ (reportAt om s n).result = .done

/-- It ended in a fault (60_exceptions.md R251). -/
def RunEndsInFault (om : OpMap) (s : State w) (n : Nat) : Prop :=
  RunEndsAt om s n ∧ ∃ f, (reportAt om s n).result = .fault f

/-- What an operation does to the data store, as an event of its history: a performed write, or the clearing of every slot
(20_memory.md R68). -/
inductive DataEvent (w : Nat := Config.width) where
  | wrote (i : Fin Config.dataSlots) (v : Word w)
  | cleared
  deriving DecidableEq, Repr

/-- A bounds-checked write as events: none when the index is out of range (20_memory.md R53). -/
def writeEvents (i v : Word w) : List (DataEvent w) :=
  match dataIndex? i with
  | some k => [.wrote k v]
  | none => []

/-- The events of a list of accesses: the writes, of the value `v`. -/
def accessEvents (v : Word w) : List (Access w) → List (DataEvent w)
  | [] => []
  | .read _ :: rest => accessEvents v rest
  | .write i :: rest => writeEvents i v ++ accessEvents v rest

/-- The events of the second pass of the assembler: its data lines, in source order (30_encoding.md R131). -/
def itemEvents : List (Item w) → List (DataEvent w)
  | [] => []
  | .code _ _ _ :: rest => itemEvents rest
  | .data i v :: rest => writeEvents i v ++ itemEvents rest

/-- The UTF-8 form of a text, by Lean's own encoder (30_encoding.md R110). -/
def utf8Encode (cs : List Char) : List (BitVec 8) := cs.flatMap fun c => (String.utf8EncodeChar c).map UInt8.toBitVec

/-- What a source loads: the items of its lines; nothing when it is refused (30_encoding.md R120). -/
def itemsOf (source : List (BitVec 8)) : List (Item w) :=
  match utf8Decode source with
  | some text =>
    match validate (sourceLines text) with
    | .ok items => items
    | .error _ => []
  | none => []

/-- The events of one operation in a state: a step writes what the accesses of its instruction write; the host writes
through its mutator, the loader and `clear` (20_memory.md R68). -/
def eventsOf (om : OpMap) (op : Operation w) (s : State w) : List (DataEvent w) :=
  match op with
  | .step =>
    match fetchDecode om s with
    | .ok i => accessEvents s.acc (accesses i s)
    | .error _ => []
  | .host .clear => [.cleared]
  | .host (.assemble source) => itemEvents (itemsOf source)
  | .host (.setData i v) => writeEvents i v
  | .host .readAcc => []
  | .host .readPc => []
  | .host .readHalted => []
  | .host (.writeAcc _) => []
  | .host (.writePc _) => []
  | .host (.getData _) => []
  | .host (.getDataRange _ _) => []
  | .host (.getCode _) => []
  | .host (.getCodeRange _ _) => []
  | .host (.setCode _ _) => []
  | .host (.addCode _) => []
  | .host .programSize => []
  | .host .readChangedDataIndex => []

/-- The history of an execution: the events of its operations, in order. -/
def history (om : OpMap) : List (Operation w) → State w → List (DataEvent w)
  | [], _ => []
  | op :: ops, s => eventsOf om op s ++ history om ops (perform om op s).1

/-- What a slot holds after a history, `v` being what it held before: the latest write to it, 0 if none since the latest
clearing (20_memory.md R68). -/
def slotAfter (i : Fin Config.dataSlots) (v : Word w) : List (DataEvent w) → Word w
  | [] => v
  | .cleared :: rest => slotAfter i 0 rest
  | .wrote k x :: rest => slotAfter i (if k = i then x else v) rest

end Sys2Proof.Machine
end

