-- ==== Sys2Proof/Certificates/Slice0/Obligations.lean ====
section
/-! DEFINITION. The statements about the model. "Decision Dn" in a docstring is the spec's own choice on a point its source
leaves open (92_eei_decisions.md); "log n" is notes/assumptions/n.md. `w` is the width `W`: a statement over every `w` is one
over every hardware the spec admits; one that speaks of `exec` or `step` is of the default width, and
`StepRunsTheDecodedInstruction` says that they are `execAt` and `stepWith` there (log 1). -/

open Sys2Proof Sys2Proof.Machine

/-! ## Encoding and the decoder block -/

/-- Words written out from 30_encoding.md R91, R92 and R96 decode to the instructions they stand for. The base opcodes are
those of the default `OPMAP` (decision D2, log 2). -/
def Obligations.ListedWordsDecode : Prop :=
  decodeTableWord 8 0b00000000 = some (.nop 0) ∧ decodeTableWord 8 0b00001001 = some (.addDirect 0) ∧
  decodeTableWord 8 0b00010010 = some (.subImmediate 0) ∧ decodeTableWord 8 0b00011101 = some (.mulIndirect 0) ∧
  decodeTableWord 8 0b00100001 = some (.divDirect 0) ∧ decodeTableWord 8 0b00101000 = some (.halt 0) ∧
  decodeTableWord 8 0b00110110 = some (.jumpSpecial 0) ∧ decodeTableWord 8 0b00111010 = some (.jmpzImmediate 0) ∧
  decodeTableWord 8 0b01000100 = some (.lodIndirect 0) ∧ decodeTableWord 8 0b01001101 = some (.stoIndirect 0) ∧
  decodeTableWord 8 0b01010000 = some (.not 0) ∧ decodeTableWord 8 0b01011001 = some (.andDirect 0) ∧
  decodeTableWord 8 0b01100000 = some (.cmpl 0) ∧ decodeTableWord 8 0b01101001 = some (.cmpz 0)

/-- 30_encoding.md R94: the fields of any opcode are `opcode / 8` and `opcode & 6`; for all 32 base opcodes, assigned or
not, and all four modes, the fields of the encoded opcode are the ones encoded, and its count of ones is even; an opcode of
even parity is the encoding of its fields, so that its parity bit adds nothing to them. -/
def Obligations.OpcodeFieldsRoundTrip : Prop :=
  (∀ opcode : BitVec 8, (baseOpcode opcode).toNat = opcode.toNat / 8 ∧
    (AddrMode.ofBits (modeBits opcode)).flags = (opcode &&& 6).toNat) ∧
  (∀ (base : BitVec 5) (mode : AddrMode),
    baseOpcode (encodeOpcode base mode) = base ∧ modeBits (encodeOpcode base mode) = mode.bits ∧
      popcount (encodeOpcode base mode) % 2 = 0 ∧
      (encodeOpcode base mode).toNat / 8 = base.toNat ∧ (encodeOpcode base mode &&& 6).toNat = mode.flags) ∧
  ∀ opcode : BitVec 8, popcount opcode % 2 = 0 →
    encodeOpcode (baseOpcode opcode) (AddrMode.ofBits (modeBits opcode)) = opcode

/-- Decoding the entry of an instruction gives the instruction back, for every injective `OPMAP`, every instruction and
every argument. -/
def Obligations.DecodeOfEncodeIsTheInstruction : Prop :=
  ∀ (w : Nat) (om : OpMap), om.wellFormed = true → ∀ i : Instr w, decodeEntry om (encode om i) = .ok i

/-- Every entry that decodes is the entry of the instruction it decodes to: each entry has one meaning, and no bit of it is
dropped. It holds for every `OPMAP`. -/
def Obligations.EncodeOfDecodeIsTheEntry : Prop :=
  ∀ (w : Nat) (om : OpMap) (e : CodeEntry w) (i : Instr w), decodeEntry om e = .ok i → encode om i = e

/-- 30_encoding.md R93: an opcode with an odd number of ones is refused with Parity before any opcode-specific decode,
whatever its base opcode and its flags are and whatever the map is, and a step that fetches one fails with Parity; one with
an even number never is; of the 256 opcodes 128 pass and 128 fail. -/
def Obligations.OddParityRefusedFirst : Prop :=
  (∀ (w : Nat) (om : OpMap) (e : CodeEntry w) (s : State w), popcount e.opcode % 2 = 1 →
    (∃ p, decodeOpcode om e.opcode = .error (.parity p)) ∧
      (Fetches s e → ∃ p, (stepReportWith om s).result = .fault (.parity p))) ∧
  (∀ (om : OpMap) (opcode : BitVec 8), popcount opcode % 2 = 0 → ∀ p, decodeOpcode om opcode ≠ .error (.parity p)) ∧
  ((List.range 256).countP fun n => popcount (BitVec.ofNat 8 n) % 2 == 0) = 128 ∧
  ((List.range 256).countP fun n => popcount (BitVec.ofNat 8 n) % 2 == 1) = 128

/-- When the decoder gives each of its four verdicts (30_encoding.md R98; decisions D6, D8 and D13 for the unassigned base
opcode, the payloads and the order). -/
def Obligations.DecoderVerdictsExactly : Prop :=
  ∀ (om : OpMap), om.wellFormed = true → ∀ (opcode : BitVec 8),
    (∀ m mode, decodeOpcode om opcode = .ok (m, mode) ↔
      popcount opcode % 2 = 0 ∧ om.code m = baseOpcode opcode ∧ mode.bits = modeBits opcode ∧ Legal m mode = true) ∧
    (∀ b, decodeOpcode om opcode = .error (.unassignedOpcode b) ↔
      popcount opcode % 2 = 0 ∧ b = baseOpcode opcode ∧ ∀ m, om.code m ≠ b) ∧
    (∀ k, decodeOpcode om opcode = .error (.illegalInstruction k) ↔
      popcount opcode % 2 = 0 ∧ k = modeBits opcode ∧
        ∃ m mode, om.code m = baseOpcode opcode ∧ mode.bits = k ∧ Legal m mode = false) ∧
    (∀ p, decodeOpcode om opcode = .error (.parity p) ↔ popcount opcode % 2 = 1 ∧ p = opcode)

/-- The counts of 30_encoding.md R103 over the 256 opcodes, for every injective `OPMAP`: 128 of odd parity, 32 legal forms,
24 illegal flags, 72 unassigned (decision D6 for the last kind). -/
def Obligations.VerdictCountsForEveryMap : Prop :=
  ∀ (om : OpMap), om.wellFormed = true →
    let verdicts := (List.range 256).map fun n => decodeOpcode om (BitVec.ofNat 8 n)
    (verdicts.countP fun v => match v with | .error (.parity _) => true | _ => false) = 128 ∧
    (verdicts.countP fun v => match v with | .ok _ => true | _ => false) = 32 ∧
    (verdicts.countP fun v => match v with | .error (.illegalInstruction _) => true | _ => false) = 24 ∧
    (verdicts.countP fun v => match v with | .error (.unassignedOpcode _) => true | _ => false) = 72

/-- The decoder's ports agree with its verdict, and `path` is the dispatch class of the decoded mnemonic (30_encoding.md
R105, R106; decision D17: the ports are the spec's own). -/
def Obligations.DecoderPortsAgree : Prop :=
  ∀ (om : OpMap) (opcode : BitVec 8),
    ((∃ m mode, (decoderPorts om opcode).verdict = .ok (m, mode)) ↔
      (decoderPorts om opcode).parityOk = true ∧ (decoderPorts om opcode).assigned = true ∧
        (decoderPorts om opcode).flagsLegal = true) ∧
    (∀ m mode, (decoderPorts om opcode).verdict = .ok (m, mode) →
      (decoderPorts om opcode).mnemonic = some m ∧ (decoderPorts om opcode).mode = mode.bits ∧
        (decoderPorts om opcode).path = some m.path) ∧
    ((decoderPorts om opcode).flagsLegal = true → (decoderPorts om opcode).assigned = true)

/-! ## The step -/

/-- A step runs the decoded instruction, at every width: when `pc` is the index of an entry that decodes to `i`, the step is
that of `i`, and so is its report. On the host's interface, at the default width and `OPMAP`, the step is `exec i`, which is
`execAt i`; with the entry of any instruction there, that instruction runs (40_fetch_decode_dispatch.md R150, R151, R153). -/
def Obligations.StepRunsTheDecodedInstruction : Prop :=
  (∀ (w : Nat) (om : OpMap) (e : CodeEntry w) (i : Instr w) (s : State w), Fetches s e → decodeEntry om e = .ok i →
    stepWith om s = execAt i s ∧ stepReportWith om s = effectReport i s) ∧
  (∀ (e : CodeEntry) (i : Instr) (s : State), Fetches s e → decodeEntry Config.opMap e = .ok i →
    step s = exec i s ∧ exec i s = execAt i s) ∧
  (∀ (i : Instr) (s : State), Fetches s (encode Config.opMap i) → step s = exec i s) ∧
  (∀ s : State, step s = stepWith Config.opMap s)

/-- Every step and every instruction answers a next state, the state of its report, at every width and on the host's
interface: no state stops the machine (40_fetch_decode_dispatch.md R161). A fault is a next state (log 3). -/
def Obligations.StepIsTotal : Prop :=
  (∀ (w : Nat) (om : OpMap) (s : State w), stepWith om s = .next (stepReportWith om s).state) ∧
  (∀ (w : Nat) (i : Instr w) (s : State w), execAt i s = .next (effectReport i s).state) ∧
  (∀ (i : Instr) (s : State), exec i s = .next (effectReport i s).state) ∧
  (∀ s : State, step s = .next (stepReport s).state)

/-- A fetch with `pc` outside `0 .. code_size - 1` faults with Code-Access and nothing else of the step happens
(40_fetch_decode_dispatch.md R151; the payload is decision D8). -/
def Obligations.CodeAccessAtFetch : Prop :=
  ∀ (w : Nat) (om : OpMap) (s : State w), s.pc.toInt < 0 ∨ (s.codeSize : Int) ≤ s.pc.toInt →
    stepReportWith om s = faultReport s (.codeAccess s.pc) ∧ stepWith om s = .next { s with halted := true }

/-- Which fault a step raises, exactly: the first of the six checks that fails, each made only when all before it passed
(60_exceptions.md R249; decisions D6, D7, D8, D13). -/
def Obligations.FaultPriority : Prop :=
  ∀ (w : Nat) (om : OpMap), om.wellFormed = true → ∀ (s : State w) (f : Fault w),
    (stepReportWith om s).result = .fault f ↔
      (f = .codeAccess s.pc ∧ ∀ e, ¬ Fetches s e) ∨
      ∃ e, Fetches s e ∧
        ((f = .parity e.opcode ∧ popcount e.opcode % 2 = 1) ∨
          (popcount e.opcode % 2 = 0 ∧
            ((f = .unassignedOpcode (baseOpcode e.opcode) ∧ ∀ m, om.code m ≠ baseOpcode e.opcode) ∨
              ∃ m, om.code m = baseOpcode e.opcode ∧
                ((f = .illegalInstruction (modeBits e.opcode) ∧
                    Legal m (AddrMode.ofBits (modeBits e.opcode)) = false) ∨
                  ∃ i, decodeEntry om e = .ok i ∧
                    ((∃ bad, firstBadRead (accesses i s) = some bad ∧ f = .dataAccess bad) ∨
                      (firstBadRead (accesses i s) = none ∧ i.mnemonic = .div ∧ OperandIs i.mode i.arg s 0 ∧
                        f = .divideByZero))))))

/-- A step that raises a fault changes nothing but `halted`, which becomes 1, and asserts `halt_signal` (60_exceptions.md
R246; decision D10). -/
def Obligations.FaultChangesOnlyHalted : Prop :=
  ∀ (w : Nat) (om : OpMap) (s : State w) (f : Fault w), (stepReportWith om s).result = .fault f →
    stepReportWith om s = faultReport s f ∧ stepWith om s = .next { s with halted := true }

/-- `halt_signal` is 1 on a step that executes HALT or raises a fault, and on no other; the machine is then HALTED
(60_exceptions.md R248, 70_reset_and_hazards.md R286; decision D9). -/
def Obligations.HaltSignalExactly : Prop :=
  ∀ (w : Nat) (om : OpMap) (s : State w),
    ((stepReportWith om s).haltSignal = true ↔
      (∃ a, fetchDecode om s = .ok (.halt a)) ∨ ∃ f, (stepReportWith om s).result = .fault f) ∧
    ((stepReportWith om s).haltSignal = true → (stepReportWith om s).state.halted = true)

/-- After a fault the next step, with no host operation in between, raises the same fault and changes nothing; after a HALT
it executes the HALT again and changes nothing (60_exceptions.md R250; decision D9). -/
def Obligations.HaltedStepRepeats : Prop :=
  ∀ (w : Nat) (om : OpMap) (s : State w), (stepReportWith om s).haltSignal = true →
    stepReportWith om (stepReportWith om s).state = stepReportWith om s

/-- No part of a step reads `halted`: two states that differ in it alone give the same outputs and the same other state
(10_state.md R27; decision D9). -/
def Obligations.HaltedIsNotRead : Prop :=
  ∀ (w : Nat) (om : OpMap) (s : State w) (b : Bool),
    (stepReportWith om { s with halted := b }).result = (stepReportWith om s).result ∧
    (stepReportWith om { s with halted := b }).haltSignal = (stepReportWith om s).haltSignal ∧
    { (stepReportWith om { s with halted := b }).state with halted := true } =
      { (stepReportWith om s).state with halted := true }

/-- Nothing clears `halted` but the host's `clear`: no instruction and no other host operation (60_exceptions.md R253;
decision D20), and nothing sets it but a step that asserts `halt_signal`. -/
def Obligations.OnlyClearLeavesHalted : Prop :=
  ∀ (w : Nat) (om : OpMap) (op : Operation w) (s : State w),
    (s.halted = true → (perform om op s).1.halted = false → op = .host .clear) ∧
    (s.halted = false → (perform om op s).1.halted = true → op = .step ∧ (stepReportWith om s).haltSignal = true)

/-- What one step can change (40_fetch_decode_dispatch.md R161): never `code`; at most one data slot, and that together with
`changedDataIndex`; a slot only by a STO, the slot its store index names, and then to the accumulator's value. A STO whose
index names no slot changes neither the slots nor `changedDataIndex` (decision D11, log 8). -/
def Obligations.StepChangesAtMostOneSlot : Prop :=
  ∀ (w : Nat) (om : OpMap) (s : State w), s.wf →
    (stepReportWith om s).state.code = s.code ∧
    (((∀ j, (stepReportWith om s).state.slot j = s.slot j) ∧
        (stepReportWith om s).state.changedDataIndex = s.changedDataIndex) ∨
      ∃ i a k, fetchDecode om s = .ok i ∧ i.mnemonic = .sto ∧ storeAddr i.mode i.arg s = .ok a ∧ NamesSlot a k ∧
        (stepReportWith om s).state.changedDataIndex = some k ∧
        ∀ j, (stepReportWith om s).state.slot j = if j = k then s.acc else s.slot j)

/-- 40_fetch_decode_dispatch.md R154: every instruction but JUMP, JMPZ and HALT increments `pc` by 1; JUMP and JMPZ set it
by the mode, do not also increment and write nothing else; HALT does not change it; a fault leaves it as it was. -/
def Obligations.PcUpdateClasses : Prop :=
  ∀ (w : Nat) (i : Instr w) (s t : State w), execAt i s = .next t →
    ((effectReport i s).result = .done →
      (i.mnemonic ≠ .jump → i.mnemonic ≠ .jmpz → i.mnemonic ≠ .halt → t.pc = wrap (s.pc.toInt + 1)) ∧
      (i.mnemonic = .jump → TargetIs i.mode i.arg s t.pc ∧ t = { s with pc := t.pc }) ∧
      (i.mnemonic = .jmpz → s.acc = 0 → TargetIs i.mode i.arg s t.pc ∧ t = { s with pc := t.pc }) ∧
      (i.mnemonic = .jmpz → s.acc ≠ 0 → t.pc = wrap (s.pc.toInt + 1) ∧ t = { s with pc := t.pc }) ∧
      (i.mnemonic = .halt → t.pc = s.pc)) ∧
    (∀ f, (effectReport i s).result = .fault f → t.pc = s.pc)

/-- 60_exceptions.md R245: Divide-by-Zero is raised exactly by a DIV whose operand has been obtained and is 0, before
anything is written. -/
def Obligations.DivideByZeroExactly : Prop :=
  ∀ (w : Nat) (om : OpMap) (s : State w),
    ((stepReportWith om s).result = .fault .divideByZero ↔
      ∃ i, fetchDecode om s = .ok i ∧ i.mnemonic = .div ∧ OperandIs i.mode i.arg s 0) ∧
    ((stepReportWith om s).result = .fault .divideByZero → stepReportWith om s = faultReport s .divideByZero)

/-- What a step yields depends on the data store only through the slots its instruction's list of reads names
(40_fetch_decode_dispatch.md R159): two states that differ in the data store alone and agree on those slots make the same
accesses and give the same outputs and the same registers, and every slot is either written in both, with the same value,
or in neither. -/
def Obligations.StepReadsOnlyListedSlots : Prop :=
  ∀ (w : Nat) (i : Instr w) (s : State w) (d : Memory w), s.data.wf = true → d.wf = true →
    (∀ j k, Access.read j ∈ accesses i s → NamesSlot j k → { s with data := d }.slot k = s.slot k) →
    accesses i { s with data := d } = accesses i s ∧
    (effectReport i { s with data := d }).result = (effectReport i s).result ∧
    (effectReport i { s with data := d }).haltSignal = (effectReport i s).haltSignal ∧
    { (effectReport i { s with data := d }).state with data := [] } = { (effectReport i s).state with data := [] } ∧
    ∀ k, (effectReport i { s with data := d }).state.slot k = (effectReport i s).state.slot k ∨
      ((effectReport i { s with data := d }).state.slot k = { s with data := d }.slot k ∧
        (effectReport i s).state.slot k = s.slot k)

/-- The mux as one block (40_fetch_decode_dispatch.md R160; 30_encoding.md R106): no value on the path `NONE`, the operand
on `VALUE`, the store index on `STORE`, the next `pc` on `TARGET`, and otherwise a Data-Access fault with an index that
names no slot (decisions D7, D17). -/
def Obligations.MuxFollowsThePath : Prop :=
  ∀ (w : Nat) (i : Instr w) (s : State w),
    (∀ x, mux i.mnemonic.path i.mode i.arg s.pc s = .ok (some x) ↔
      (i.mnemonic.path = .value ∧ OperandIs i.mode i.arg s x) ∨
      (i.mnemonic.path = .store ∧ StoreIndexIs i.mode i.arg s x) ∨
      (i.mnemonic.path = .target ∧ TargetIs i.mode i.arg s x)) ∧
    (mux i.mnemonic.path i.mode i.arg s.pc s = .ok none ↔ i.mnemonic.path = .none) ∧
    (∀ f, mux i.mnemonic.path i.mode i.arg s.pc s = .error f → ∃ bad, f = .dataAccess bad ∧ NamesNoSlot bad)

/-! ## Reset and the invariant -/

/-- `clear()` leaves one state whatever was there before: `acc` 0, `pc` 0, RUNNING, every slot 0, no code entry,
`changedDataIndex` NONE; and it is the state after reset (70_reset_and_hazards.md R280, R281, 10_state.md R33; decisions
D5, D11, D20). -/
def Obligations.ClearGivesTheResetState : Prop :=
  (∀ (w : Nat) (om : OpMap) (s : State w),
    (perform om (.host .clear) s).1 = State.resetAt w ∧ (State.resetAt w).acc = 0 ∧ (State.resetAt w).pc = 0 ∧
      (State.resetAt w).halted = false ∧ (∀ k, (State.resetAt w).slot k = 0) ∧ (State.resetAt w).codeSize = 0 ∧
      (State.resetAt w).changedDataIndex = none) ∧
  ∀ (om : OpMap) (s : State), (perform om (.host .clear) s).1 = State.reset

/-- The invariant holds after reset, at every width. -/
def Obligations.ResetMeetsTheInvariant : Prop := (∀ w : Nat, (State.resetAt w).wf) ∧ State.reset.wf

/-- Every step keeps the invariant: the data store stays canonical and within its 512 slots, the code store within its 256
entries. -/
def Obligations.StepKeepsTheInvariant : Prop :=
  (∀ (w : Nat) (om : OpMap) (s t : State w), s.wf → stepWith om s = .next t → t.wf) ∧
  ∀ s t : State, s.wf → step s = .next t → t.wf

/-- Every operation of either agent keeps the invariant, for every `OPMAP`: steps, clear, assembling, every mutator. -/
def Obligations.EveryOperationKeepsTheInvariant : Prop :=
  ∀ (w : Nat) (om : OpMap) (ops : List (Operation w)) (s : State w), s.wf → (performAll om ops s).wf

/-! ## What each instruction does, and when it completes -/

/-- 41_nop_halt.md R170: NOP increments `pc` and changes nothing else, whatever its argument is; it raises nothing. -/
def Obligations.NopResult : Prop :=
  ∀ (a : Word) (s : State), exec (.nop a) s = .next { s with pc := wrap (s.pc.toInt + 1) } ∧
    effectReport (.nop a) s = ⟨{ s with pc := wrap (s.pc.toInt + 1) }, .done, false⟩

/-- 41_nop_halt.md R171: HALT sets `halted`, asserts `halt_signal` with `result = Done`, and leaves `pc` and everything
else; a further step executes the same HALT again. -/
def Obligations.HaltResult : Prop :=
  ∀ (a : Word) (s : State), exec (.halt a) s = .next { s with halted := true } ∧
    effectReport (.halt a) s = ⟨{ s with halted := true }, .done, true⟩ ∧
    (∀ om, fetchDecode om s = .ok (.halt a) → fetchDecode om { s with halted := true } = .ok (.halt a))

/-- 42_arithmetic.md R183: ADD in its three modes. -/
def Obligations.AddResult : Prop :=
  ∀ (a x bad : Word) (s : State),
    ∀ p ∈ [(AddrMode.direct, Instr.addDirect a), (.immediate, .addImmediate a), (.indirect, .addIndirect a)],
      (OperandIs p.1 a s x →
        exec p.2 s = .next { s with acc := wrap (s.acc.toInt + x.toInt), pc := wrap (s.pc.toInt + 1) }) ∧
      (OperandFaults p.1 a s bad → FaultsWith p.2 s (.dataAccess bad))

/-- 42_arithmetic.md R184: SUB in its three modes, accumulator minus operand. -/
def Obligations.SubResult : Prop :=
  ∀ (a x bad : Word) (s : State),
    ∀ p ∈ [(AddrMode.direct, Instr.subDirect a), (.immediate, .subImmediate a), (.indirect, .subIndirect a)],
      (OperandIs p.1 a s x →
        exec p.2 s = .next { s with acc := wrap (s.acc.toInt - x.toInt), pc := wrap (s.pc.toInt + 1) }) ∧
      (OperandFaults p.1 a s bad → FaultsWith p.2 s (.dataAccess bad))

/-- 42_arithmetic.md R185: MUL in its three modes, the low `W` bits of the product. -/
def Obligations.MulResult : Prop :=
  ∀ (a x bad : Word) (s : State),
    ∀ p ∈ [(AddrMode.direct, Instr.mulDirect a), (.immediate, .mulImmediate a), (.indirect, .mulIndirect a)],
      (OperandIs p.1 a s x →
        exec p.2 s = .next { s with acc := wrap (s.acc.toInt * x.toInt), pc := wrap (s.pc.toInt + 1) }) ∧
      (OperandFaults p.1 a s bad → FaultsWith p.2 s (.dataAccess bad))

/-- DIV in its three modes (42_arithmetic.md R186): the truncated quotient (decision D4), or Divide-by-Zero on an operand of
0 with nothing written, or Data-Access when there is no operand to test (decision D7). -/
def Obligations.DivResult : Prop :=
  ∀ (a x bad : Word) (s : State),
    ∀ p ∈ [(AddrMode.direct, Instr.divDirect a), (.immediate, .divImmediate a), (.indirect, .divIndirect a)],
      (OperandIs p.1 a s x → x ≠ 0 →
        exec p.2 s = .next { s with acc := wrap (Int.tdiv s.acc.toInt x.toInt), pc := wrap (s.pc.toInt + 1) }) ∧
      (OperandIs p.1 a s x → x = 0 → FaultsWith p.2 s .divideByZero) ∧
      (OperandFaults p.1 a s bad → FaultsWith p.2 s (.dataAccess bad))

/-- JUMP in its four modes (43_control_transfer.md R200): `pc` becomes the target and nothing else changes; a slot out of
range faults (decisions D3, D7). -/
def Obligations.JumpResult : Prop :=
  ∀ (a t : Word) (s : State),
    ∀ p ∈ [(AddrMode.direct, Instr.jumpDirect a), (.immediate, .jumpImmediate a), (.indirect, .jumpIndirect a),
        (.special, .jumpSpecial a)],
      (TargetIs p.1 a s t → exec p.2 s = .next { s with pc := t }) ∧
      (p.1 = .indirect ∨ p.1 = .special → NamesNoSlot a → FaultsWith p.2 s (.dataAccess a))

/-- JMPZ in its four modes (43_control_transfer.md R201): taken exactly when `acc` is 0, else `pc + 1` with no operand
evaluated, so that a slot out of range faults only when taken (decisions D3, D7, D12). -/
def Obligations.JmpzResult : Prop :=
  ∀ (a t : Word) (s : State),
    ∀ p ∈ [(AddrMode.direct, Instr.jmpzDirect a), (.immediate, .jmpzImmediate a), (.indirect, .jmpzIndirect a),
        (.special, .jmpzSpecial a)],
      (s.acc = 0 → TargetIs p.1 a s t → exec p.2 s = .next { s with pc := t }) ∧
      (s.acc ≠ 0 → exec p.2 s = .next { s with pc := wrap (s.pc.toInt + 1) }) ∧
      (s.acc = 0 → p.1 = .indirect ∨ p.1 = .special → NamesNoSlot a → FaultsWith p.2 s (.dataAccess a))

/-- LOD in its three modes (44_load_store.md R210; decision D7 for the fault). -/
def Obligations.LodResult : Prop :=
  ∀ (a x bad : Word) (s : State),
    ∀ p ∈ [(AddrMode.direct, Instr.lodDirect a), (.immediate, .lodImmediate a), (.indirect, .lodIndirect a)],
      (OperandIs p.1 a s x → exec p.2 s = .next { s with acc := x, pc := wrap (s.pc.toInt + 1) }) ∧
      (OperandFaults p.1 a s bad → FaultsWith p.2 s (.dataAccess bad))

/-- STO in its two modes (44_load_store.md R211): a store index in range receives the accumulator and becomes
`changedDataIndex`; a store index out of range is dropped in silence and only `pc` changes; a pointer slot out of range
faults (decisions D7, D11). The premise is the invariant of the data store. -/
def Obligations.StoResult : Prop :=
  ∀ (a i : Word) (s : State), s.data.wf = true →
    ∀ p ∈ [(AddrMode.direct, Instr.stoDirect a), (.indirect, .stoIndirect a)],
      (∀ k, StoreIndexIs p.1 a s i → NamesSlot i k → ∃ t, exec p.2 s = .next t ∧
        t.acc = s.acc ∧ t.pc = wrap (s.pc.toInt + 1) ∧ t.halted = s.halted ∧ t.code = s.code ∧
        t.changedDataIndex = some k ∧ ∀ j, t.slot j = if j = k then s.acc else s.slot j) ∧
      (StoreIndexIs p.1 a s i → NamesNoSlot i → exec p.2 s = .next { s with pc := wrap (s.pc.toInt + 1) }) ∧
      (p.1 = .indirect → NamesNoSlot a → FaultsWith p.2 s (.dataAccess a))

/-- 45_logic_compare.md R220: NOT leaves 1 for an accumulator of 0 and 0 for any other, whatever its argument is, and
raises nothing. -/
def Obligations.NotResult : Prop :=
  ∀ (a : Word) (s : State),
    (s.acc.toInt = 0 → exec (.not a) s = .next { s with acc := 1, pc := wrap (s.pc.toInt + 1) }) ∧
    (s.acc.toInt ≠ 0 → exec (.not a) s = .next { s with acc := 0, pc := wrap (s.pc.toInt + 1) }) ∧
    (effectReport (.not a) s).result = .done

/-- AND in its two modes (45_logic_compare.md R221): 1 when both inputs are non-zero, else 0; the operand is read whatever
`acc` holds, so a slot out of range faults whatever `acc` holds (decision D7). -/
def Obligations.AndResult : Prop :=
  ∀ (a x bad : Word) (s : State),
    ∀ p ∈ [(AddrMode.direct, Instr.andDirect a), (.immediate, .andImmediate a)],
      (OperandIs p.1 a s x → s.acc.toInt ≠ 0 → x.toInt ≠ 0 →
        exec p.2 s = .next { s with acc := 1, pc := wrap (s.pc.toInt + 1) }) ∧
      (OperandIs p.1 a s x → s.acc.toInt = 0 ∨ x.toInt = 0 →
        exec p.2 s = .next { s with acc := 0, pc := wrap (s.pc.toInt + 1) }) ∧
      (OperandFaults p.1 a s bad → FaultsWith p.2 s (.dataAccess bad))

/-- CMPL and CMPZ (45_logic_compare.md R222, R223): they test the slot, signed, and not the accumulator; a slot out of
range faults (decision D7). -/
def Obligations.CompareResult : Prop :=
  ∀ (a : Word) (s : State),
    (∀ k, NamesSlot a k →
      exec (.cmpl a) s =
        .next { s with acc := if (s.slot k).toInt < 0 then 1 else 0, pc := wrap (s.pc.toInt + 1) } ∧
      exec (.cmpz a) s =
        .next { s with acc := if (s.slot k).toInt = 0 then 1 else 0, pc := wrap (s.pc.toInt + 1) }) ∧
    (NamesNoSlot a → FaultsWith (.cmpl a) s (.dataAccess a) ∧ FaultsWith (.cmpz a) s (.dataAccess a))

/-- The same at every width `W` the spec admits (00_scope.md R6, 42_arithmetic.md R180; decision D1): what each of the 14
mnemonics does in each of its modes, exactly, and which fault it raises instead (41_nop_halt.md to 45_logic_compare.md;
decisions D3, D4, D7, D11, D12). An operand, a store index or a target is as the mode gives it. -/
def Obligations.ResultsAtEveryWidth : Prop :=
  ∀ (w : Nat) (i : Instr w) (s : State w), s.data.wf = true →
    let advanced (v : Word w) : Outcome w := .next { s with acc := v, pc := wrap (s.pc.toInt + 1) }
    (i.mnemonic = .nop → execAt i s = advanced s.acc) ∧
    (i.mnemonic = .halt → execAt i s = .next { s with halted := true }) ∧
    (i.mnemonic = .not → execAt i s = advanced (if s.acc.toInt = 0 then 1 else 0)) ∧
    (∀ x, OperandIs i.mode i.arg s x →
      (i.mnemonic = .add → execAt i s = advanced (wrap (s.acc.toInt + x.toInt))) ∧
      (i.mnemonic = .sub → execAt i s = advanced (wrap (s.acc.toInt - x.toInt))) ∧
      (i.mnemonic = .mul → execAt i s = advanced (wrap (s.acc.toInt * x.toInt))) ∧
      (i.mnemonic = .div → x ≠ 0 → execAt i s = advanced (wrap (Int.tdiv s.acc.toInt x.toInt))) ∧
      (i.mnemonic = .div → x = 0 → FaultsAt i s .divideByZero) ∧
      (i.mnemonic = .lod → execAt i s = advanced x) ∧
      (i.mnemonic = .and → execAt i s = advanced (if s.acc.toInt ≠ 0 ∧ x.toInt ≠ 0 then 1 else 0)) ∧
      (i.mnemonic = .cmpl → execAt i s = advanced (if x.toInt < 0 then 1 else 0)) ∧
      (i.mnemonic = .cmpz → execAt i s = advanced (if x.toInt = 0 then 1 else 0))) ∧
    (∀ bad, OperandFaults i.mode i.arg s bad → i.mnemonic.path = .value → FaultsAt i s (.dataAccess bad)) ∧
    (∀ t, TargetIs i.mode i.arg s t → i.mnemonic = .jump ∨ (i.mnemonic = .jmpz ∧ s.acc = 0) →
      execAt i s = .next { s with pc := t }) ∧
    (i.mnemonic = .jmpz → s.acc ≠ 0 → execAt i s = advanced s.acc) ∧
    (i.mnemonic = .jump ∨ (i.mnemonic = .jmpz ∧ s.acc = 0) → i.mode = .indirect ∨ i.mode = .special →
      NamesNoSlot i.arg → FaultsAt i s (.dataAccess i.arg)) ∧
    (i.mnemonic = .sto → ∀ b, StoreIndexIs i.mode i.arg s b →
      (∀ k, NamesSlot b k → ∃ t, execAt i s = .next t ∧ t.acc = s.acc ∧ t.pc = wrap (s.pc.toInt + 1) ∧
        t.halted = s.halted ∧ t.code = s.code ∧ t.changedDataIndex = some k ∧
        ∀ j, t.slot j = if j = k then s.acc else s.slot j) ∧
      (NamesNoSlot b → execAt i s = advanced s.acc)) ∧
    (i.mnemonic = .sto → i.mode = .indirect → NamesNoSlot i.arg → FaultsAt i s (.dataAccess i.arg))

/-! ## Frames -/

/-- The forms that write the accumulator leave everything but `acc` and `pc` unchanged: every slot, the run state, the code
store and `changedDataIndex` (the frames of 42_arithmetic.md, 44_load_store.md and 45_logic_compare.md). The case of a
fault is `FaultChangesOnlyHalted`. -/
def Obligations.AccumulatorFormsFrame : Prop :=
  ∀ (a : Word) (s t : State),
    ∀ i ∈ [Instr.addDirect a, .addImmediate a, .addIndirect a, .subDirect a, .subImmediate a, .subIndirect a,
        .mulDirect a, .mulImmediate a, .mulIndirect a, .divDirect a, .divImmediate a, .divIndirect a,
        .lodDirect a, .lodImmediate a, .lodIndirect a, .not a, .andDirect a, .andImmediate a, .cmpl a, .cmpz a],
      (effectReport i s).result = .done → exec i s = .next t →
        (∀ k, t.slot k = s.slot k) ∧ t.data = s.data ∧ t.halted = s.halted ∧ t.code = s.code ∧
          t.changedDataIndex = s.changedDataIndex

/-- NOP, JUMP and JMPZ leave everything but `pc` unchanged, in every mode (41_nop_halt.md, 43_control_transfer.md). -/
def Obligations.ControlFormsFrame : Prop :=
  ∀ (a : Word) (s t : State),
    ∀ i ∈ [Instr.nop a, .jumpDirect a, .jumpImmediate a, .jumpIndirect a, .jumpSpecial a, .jmpzDirect a,
        .jmpzImmediate a, .jmpzIndirect a, .jmpzSpecial a],
      (effectReport i s).result = .done → exec i s = .next t →
        (∀ k, t.slot k = s.slot k) ∧ t.acc = s.acc ∧ t.data = s.data ∧ t.halted = s.halted ∧ t.code = s.code ∧
          t.changedDataIndex = s.changedDataIndex

/-- STO leaves `acc`, the run state and the code store unchanged, and every slot but the one its store index names: the
index is `storeAddr` of its mode and argument in the state it starts in (44_load_store.md R211). An index that names no slot
leaves `changedDataIndex` too (decision D11). -/
def Obligations.StoreFormsFrame : Prop :=
  ∀ (a i : Word) (s t : State),
    ∀ p ∈ [(AddrMode.direct, Instr.stoDirect a), (.indirect, .stoIndirect a)],
      storeAddr p.1 a s = .ok i → exec p.2 s = .next t →
        t.acc = s.acc ∧ t.halted = s.halted ∧ t.code = s.code ∧
        (∀ k, ¬ NamesSlot i k → t.slot k = s.slot k) ∧
        (NamesNoSlot i → t.data = s.data ∧ t.changedDataIndex = s.changedDataIndex)

/-! ## Integer laws, for every width the spec admits -/

/-- `wrap_W(z)` is the one member of `Int_W` congruent to `z` modulo `2^W`, for every width (00_scope.md R8; decision D1 for
the width). -/
def Obligations.WrapIsCongruentAndInRange : Prop :=
  ∀ (w : Nat), Config.widthOk w = true → ∀ (z : Int) (v : BitVec w),
    v = wrap z ↔ -(2 : Int) ^ (w - 1) ≤ v.toInt ∧ v.toInt < (2 : Int) ^ (w - 1) ∧ ((2 : Int) ^ w) ∣ (v.toInt - z)

/-- The quotient rounds toward zero, and the one overflow case, the most negative integer divided by -1, gives the most
negative integer (42_arithmetic.md R182; decision D4): the dividend is quotient times divisor plus a remainder smaller than
the divisor and not of the opposite sign to the dividend. -/
def Obligations.DivisionTruncates : Prop :=
  ∀ (w : Nat), Config.widthOk w = true → ∀ (x y : BitVec w), y.toInt ≠ 0 →
    (x.toInt = -(2 : Int) ^ (w - 1) → y.toInt = -1 → divW x y = x) ∧
    (¬ (x.toInt = -(2 : Int) ^ (w - 1) ∧ y.toInt = -1) →
      ∃ r : Int, x.toInt = (divW x y).toInt * y.toInt + r ∧ |r| < |y.toInt| ∧ 0 ≤ r * x.toInt)

/-! ## The stores -/

/-- The data store (20_memory.md R52, R53; decisions D7, D11): a write in range is what a read of that index then gives and
leaves every other index reading as before; a write out of range changes nothing at all; a read out of range gives no
value. -/
def Obligations.DataReadAfterWrite : Prop :=
  ∀ (w : Nat) (s : State w) (i v : Word w), s.data.wf = true →
    (∀ k, NamesSlot i k → memRead (memWrite s i v) i = .ok v ∧ (memWrite s i v).changedDataIndex = some k) ∧
    (∀ j, j ≠ i → memRead (memWrite s i v) j = memRead s j) ∧
    (NamesNoSlot i → memWrite s i v = s ∧ memRead s i = .error (.dataAccess i)) ∧
    (memWrite s i v).data.wf = true

/-- Equal stores are equal data: two canonical stores that read the same at every slot are the same list (log 4). -/
def Obligations.CanonicalStoresAreEqual : Prop :=
  ∀ (w : Nat) (m n : Memory w), m.wf = true → n.wf = true →
    (∀ k : Nat, k < Config.dataSlots → m.get k = n.get k) → m = n

/-- The code store, 20_memory.md R54, R55 and R56: an append to a store that is not full makes the entry readable at the old
size and keeps every other, and is dropped in silence once the store is full; a read or a replacement outside
`0 .. code_size - 1` fails with Code-Access; a replacement changes that entry alone and not the size. -/
def Obligations.CodeStoreLaws : Prop :=
  ∀ (w : Nat) (s : State w) (e : CodeEntry w) (i j : Word w),
    (s.codeSize < Config.codeCap →
      (addCode s e).codeSize = s.codeSize + 1 ∧
      (j.toInt = (s.codeSize : Int) → codeRead (addCode s e) j = .ok e) ∧
      (j.toInt ≠ (s.codeSize : Int) → codeRead (addCode s e) j = codeRead s j)) ∧
    (Config.codeCap ≤ s.codeSize → addCode s e = s) ∧
    (i.toInt < 0 ∨ (s.codeSize : Int) ≤ i.toInt →
      codeRead s i = .error (.codeAccess i) ∧ codeWrite s i e = .error (.codeAccess i)) ∧
    (0 ≤ i.toInt → i.toInt < s.codeSize → ∃ t, codeWrite s i e = .ok t ∧ t.codeSize = s.codeSize ∧
      codeRead t i = .ok e ∧ (j ≠ i → codeRead t j = codeRead s j) ∧ t = { s with code := t.code })

/-- What changes the size of the code store: an append or an assembly raises it, `clear()` alone lowers it, and no step and no
other request touches the code at all, but for a replacement (20_memory.md R54, R56, 60_exceptions.md R253; decision D19
for the ports). -/
def Obligations.CodeSizeChanges : Prop :=
  ∀ (w : Nat) (om : OpMap) (op : Operation w) (s : State w),
    (s.codeSize < (perform om op s).1.codeSize →
      (∃ e, op = .host (.addCode e)) ∨ ∃ source, op = .host (.assemble source)) ∧
    ((perform om op s).1.codeSize < s.codeSize → op = .host .clear) ∧
    ((∀ e, op ≠ .host (.addCode e)) → (∀ source, op ≠ .host (.assemble source)) → op ≠ .host .clear →
      (∀ i e, op ≠ .host (.setCode i e)) → (perform om op s).1.code = s.code)

/-- What a slot holds after any sequence of steps and host operations is the latest earlier write to it by any agent, or 0
if none since the latest `clear`, or what it held at the start (20_memory.md R68). -/
def Obligations.SlotHoldsLatestWrite : Prop :=
  ∀ (w : Nat) (om : OpMap) (ops : List (Operation w)) (s : State w), s.wf → ∀ k,
    (performAll om ops s).slot k = slotAfter k (s.slot k) (history om ops s)

/-! ## The host interface and the assembler -/

/-- The host's ports (10_state.md R32, 20_memory.md R58 to R62; decision D19): a refused request changes nothing; a request
other than `clear` does not touch the run state; the reading requests change nothing and reply with what they read, or with
the fault of an index out of range; a mutator writes its one item, a replacement of an entry that is not there being
refused. -/
def Obligations.HostPortsChangeOneItem : Prop :=
  ∀ (w : Nat) (om : OpMap) (r : Request w) (s : State w),
    (∀ f, (serve om r s).2 = .refused f → (serve om r s).1 = s) ∧
    (r ≠ .clear → (serve om r s).1.halted = s.halted) ∧
    (∀ i lo hi, r ∈ [.readAcc, .readPc, .readHalted, .getData i, .getDataRange lo hi, .getCode i, .getCodeRange lo hi,
      .programSize, .readChangedDataIndex] → (serve om r s).1 = s) ∧
    (r = .readAcc → (serve om r s).2 = .word s.acc) ∧
    (r = .readPc → (serve om r s).2 = .word s.pc) ∧
    (r = .readHalted → (serve om r s).2 = .bit s.halted) ∧
    (r = .programSize → (serve om r s).2 = .size s.codeSize) ∧
    (r = .readChangedDataIndex → (serve om r s).2 = .index s.changedDataIndex) ∧
    (∀ i, r = .getData i → (∀ k, NamesSlot i k → (serve om r s).2 = .word (s.slot k)) ∧
      (NamesNoSlot i → (serve om r s).2 = .refused (.dataAccess i))) ∧
    (∀ i, r = .getCode i → (∀ (n : Nat) e, i.toInt = (n : Int) → s.code[n]? = some e → (serve om r s).2 = .entry e) ∧
      (i.toInt < 0 ∨ (s.codeSize : Int) ≤ i.toInt → (serve om r s).2 = .refused (.codeAccess i))) ∧
    (∀ v, r = .writeAcc v → serve om r s = ({ s with acc := v }, .done)) ∧
    (∀ v, r = .writePc v → serve om r s = ({ s with pc := v }, .done)) ∧
    (∀ i v, r = .setData i v → serve om r s = (memWrite s i v, .done)) ∧
    (∀ e, r = .addCode e → serve om r s = (addCode s e, .done)) ∧
    (∀ i e t, r = .setCode i e → codeWrite s i e = .ok t → serve om r s = (t, .done)) ∧
    (∀ i e f, r = .setCode i e → codeWrite s i e = .error f → serve om r s = (s, .refused f)) ∧
    (∀ i e, r = .setCode i e → 0 ≤ i.toInt → i.toInt < s.codeSize →
      serve om r s = ({ s with code := s.code.set i.toInt.toNat e }, .done))

/-- The range port of the data store (20_memory.md R60; decision D19): with every index in range it gives the contents from
`lo` up to and excluding `hi`, in order; with one index out of range it is refused as a whole. That the bounds are words, and
which index the report names, is the model's choice (log 11): at `w` = 10 no bound 512 exists, so no range holds slot 511. -/
def Obligations.DataRangePort : Prop :=
  ∀ (w : Nat) (om : OpMap) (s : State w) (lo hi : Word w),
    (0 ≤ lo.toInt → hi.toInt ≤ (Config.dataSlots : Int) → ∃ vs, serve om (.getDataRange lo hi) s = (s, .words vs) ∧
      vs.length = (hi.toInt - lo.toInt).toNat ∧
      ∀ (n : Nat) (k : Fin Config.dataSlots), n < vs.length → (k.val : Int) = lo.toInt + n → vs[n]? = some (s.slot k)) ∧
    (lo.toInt < hi.toInt → lo.toInt < 0 ∨ (Config.dataSlots : Int) < hi.toInt →
      ∃ bad, NamesNoSlot bad ∧ serve om (.getDataRange lo hi) s = (s, .refused (.dataAccess bad)))

/-- A source is UTF-8 text (30_encoding.md R110): the bytes that are the UTF-8 form of a text, and no others, are read as that
text, which is assembled by its lines. That other bytes change nothing, and that a line feed ends a line, is the model's
choice (log 9). -/
def Obligations.SourceIsUtf8Text : Prop :=
  (∀ (source : List (BitVec 8)) (cs : List Char), utf8Decode source = some cs ↔ source = utf8Encode cs) ∧
  (∀ (w : Nat) (om : OpMap) (cs : List Char) (s : State w), assemble om (utf8Encode cs) s =
    ((assembleLines om (sourceLines cs) s).1, .text (assembleLines om (sourceLines cs) s).2)) ∧
  ∀ (w : Nat) (om : OpMap) (source : List (BitVec 8)) (s : State w), (∀ cs, source ≠ utf8Encode cs) →
    assemble om source s = (s, .notText)

/-- 30_encoding.md R120: validation stops at the first offending line, so nothing that follows changes the diagnostic; a
failed `assemble` changes no state; the result is 0 exactly on success, and the offending line is a line of the source. -/
def Obligations.FirstOffendingLineWins : Prop :=
  ∀ (w : Nat) (om : OpMap) (text more : List Line) (s : State w),
    (∀ d, validate (w := w) text = .error d →
      validate (w := w) (text ++ more) = .error d ∧ assembleLines om text s = (s, some d) ∧
      1 ≤ d.line ∧ d.line ≤ text.length) ∧
    (resultLine (assembleLines om text s).2 = 0 ↔ ∃ items, validate (w := w) text = .ok items) ∧
    ∀ source cs d, utf8Decode source = some cs → validate (w := w) (sourceLines cs) = .error d →
      serve om (.assemble source) s = (s, .assembled (.text (some d)))

/-- 30_encoding.md R121, with its message: a run of two or more blank lines is an error at its first line once a non-blank
line closes it, whatever that line and the rest are; a blank run at the end of the file is never flagged; one blank line is
legal and loads nothing. -/
def Obligations.BlankRunRule : Prop :=
  ∀ (w : Nat) (text run : List Line) (items : List (Item w)), validate text = .ok items →
    (∀ l ∈ run, isBlank l = true) →
    (∀ last ∈ text.getLast?, isBlank last = false) →
    validate (text ++ run) = .ok items ∧ Message.text .illegalBlankLine = some "Illegal blank line" ∧
    (2 ≤ run.length → ∀ (l : Line) (rest : List Line), isBlank l = false →
      validate (w := w) (text ++ run ++ l :: rest) = .error ⟨text.length + 1, .illegalBlankLine⟩) ∧
    (run.length ≤ 1 → ∀ (rest : List Line) (all : List (Item w)), (∀ l ∈ rest.head?, isBlank l = false) →
      (validate (text ++ run ++ rest) = .ok all ↔ validate (text ++ rest) = .ok all))

/-- 30_encoding.md R126: the assembler checks the `J` prefix against the immediate-eligible set: it accepts it on eight
mnemonics, refuses it on STO, CMPL and CMPZ, and takes no argument at all on NOP, HALT and NOT. Six of the eight are then an
illegal form, and the step that fetches it raises Illegal-Instruction with mode 3; a text that is accepted holds no other
illegal form. -/
def Obligations.SpecialPrefixAnomaly : Prop :=
  (∀ (w : Nat) (m : Mnemonic) (ds : List Char) (a : Word w), hexNumber? ds = some a →
    (codeLine [mnemonicText m, 'J' :: ds] = .ok (.code m .special a) ↔
      m ∈ [.add, .sub, .mul, .div, .jump, .jmpz, .lod, .and]) ∧
    (m ∈ [.sto, .cmpl, .cmpz] → codeLine (w := w) [mnemonicText m, 'J' :: ds] = .error .illegalPrefix) ∧
    (m ∈ [.nop, .halt, .not] → codeLine (w := w) [mnemonicText m, 'J' :: ds] = .error .tooManyArgs)) ∧
  (∀ (w : Nat) (om : OpMap), om.wellFormed = true → ∀ (m : Mnemonic) (a : Word w) (s : State w), m ≠ .jump → m ≠ .jmpz →
    Fetches s (encodeForm om m .special a) → (stepReportWith om s).result = .fault (.illegalInstruction 3)) ∧
  ∀ (w : Nat) (text : List Line) (items : List (Item w)), validate text = .ok items →
    ∀ (m : Mnemonic) (mode : AddrMode) (a : Word w),
    Item.code m mode a ∈ items → Legal m mode = false → mode = .special ∧ m ∈ [.add, .sub, .mul, .div, .lod, .and]

/-- Every legal form can be written: a source of one line, the mnemonic, a space and the argument with the prefix of its mode,
loads that form with that argument, a negative number being written with a minus sign (30_encoding.md R111, R123, R125,
R127; decision D21). For NOP, HALT and NOT that line is the mnemonic alone, which loads the argument 0 (decision D14), and
an argument is one too many (30_encoding.md R124). -/
def Obligations.LegalFormsCanBeWritten : Prop :=
  ∀ (w : Nat) (m : Mnemonic) (mode : AddrMode) (ds : List Char) (a : Word w), Legal m mode = true →
    hexNumber? ds = some a →
    (m ∉ [.nop, .halt, .not] → validate [mnemonicText m ++ ' ' :: (prefixText mode ++ ds)] = .ok [.code m mode a]) ∧
    (m ∈ [.nop, .halt, .not] → validate [mnemonicText m] = .ok [.code (w := w) m .direct 0] ∧
      validate (w := w) [mnemonicText m ++ ' ' :: ds] = .error ⟨1, .tooManyArgs⟩)

/-- The loader (30_encoding.md R131; decision D20): it appends the code lines' entries after what the code store holds, in
source order, those beyond the capacity dropped; it does not touch `acc`, `pc` or `halted`. -/
def Obligations.LoaderAppendsInOrder : Prop :=
  ∀ (w : Nat) (om : OpMap) (source : List (BitVec 8)) (cs : List Char) (items : List (Item w)) (s : State w), s.wf →
    utf8Decode source = some cs → validate (sourceLines cs) = .ok items →
    (assemble om source s).1.code =
      (s.code ++ items.filterMap fun
        | .code m mode a => some (encodeForm om m mode a)
        | .data _ _ => none).take Config.codeCap ∧
    (assemble om source s).1.acc = s.acc ∧ (assemble om source s).1.pc = s.pc ∧
    (assemble om source s).1.halted = s.halted ∧ (assemble om source s).2 = .text none

/-- A program that came in through the assembler never raises Parity or Unassigned-Opcode (60_exceptions.md R241), as an
invariant: that every code entry has even parity and an assigned base opcode is kept by every operation but the host's append
and replacement of an entry, assemblies, clears and steps included; a step from any state that has it raises neither fault;
the state after reset has it. -/
def Obligations.AssembledCodeNeverFailsParity : Prop :=
  ∀ (w : Nat) (om : OpMap), om.wellFormed = true →
    (∀ (op : Operation w) (s : State w), s.codeAssigned om → op.keepsAssembled = true →
      (perform om op s).1.codeAssigned om) ∧
    (∀ s : State w, s.codeAssigned om → ∀ f, (stepReportWith om s).result = .fault f →
      (∀ opcode, f ≠ .parity opcode) ∧ ∀ base, f ≠ .unassignedOpcode base) ∧
    (State.resetAt w).codeAssigned om

/-- The end of a run (60_exceptions.md R251; decision D9): a run has at most one end; it is normal when the step there
executed HALT and in a fault otherwise, never both; and its state is HALTED. -/
def Obligations.RunEndIsUnique : Prop :=
  ∀ (w : Nat) (om : OpMap) (s : State w) (n : Nat), RunEndsAt om s n →
    (∀ k, RunEndsAt om s k → k = n) ∧
    ((RunEndsNormally om s n ∧ ∃ a, fetchDecode om (stepsFrom om n s) = .ok (.halt a)) ∨ RunEndsInFault om s n) ∧
    ¬ (RunEndsNormally om s n ∧ RunEndsInFault om s n) ∧
    (stepsFrom om (n + 1) s).halted = true
end

