-- ==== Sys2Proof/Laws/State.lean ====
section
/-! SUPPORT. One lemma per field per update of the state, each a simp lemma, so that no later proof unfolds an update. -/

namespace Sys2Proof.Machine

variable {w : Nat}

variable (s : State w) (v i : Word w) (e : CodeEntry w)

@[simp] theorem advance_acc : (advance s).acc = s.acc := rfl
@[simp] theorem advance_pc : (advance s).pc = nextPc s.pc := rfl
@[simp] theorem advance_halted : (advance s).halted = s.halted := rfl
@[simp] theorem advance_data : (advance s).data = s.data := rfl
@[simp] theorem advance_code : (advance s).code = s.code := rfl
@[simp] theorem advance_changedDataIndex : (advance s).changedDataIndex = s.changedDataIndex := rfl

@[simp] theorem writeAcc_acc : (writeAcc s v).acc = v := rfl
@[simp] theorem writeAcc_pc : (writeAcc s v).pc = nextPc s.pc := rfl
@[simp] theorem writeAcc_halted : (writeAcc s v).halted = s.halted := rfl
@[simp] theorem writeAcc_data : (writeAcc s v).data = s.data := rfl
@[simp] theorem writeAcc_code : (writeAcc s v).code = s.code := rfl
@[simp] theorem writeAcc_changedDataIndex : (writeAcc s v).changedDataIndex = s.changedDataIndex := rfl

@[simp] theorem faultEntry_acc : (faultEntry s).acc = s.acc := rfl
@[simp] theorem faultEntry_pc : (faultEntry s).pc = s.pc := rfl
@[simp] theorem faultEntry_halted : (faultEntry s).halted = true := rfl
@[simp] theorem faultEntry_data : (faultEntry s).data = s.data := rfl
@[simp] theorem faultEntry_code : (faultEntry s).code = s.code := rfl
@[simp] theorem faultEntry_changedDataIndex : (faultEntry s).changedDataIndex = s.changedDataIndex := rfl

@[simp] theorem memWrite_acc : (memWrite s i v).acc = s.acc := by unfold memWrite; split <;> rfl
@[simp] theorem memWrite_pc : (memWrite s i v).pc = s.pc := by unfold memWrite; split <;> rfl
@[simp] theorem memWrite_halted : (memWrite s i v).halted = s.halted := by unfold memWrite; split <;> rfl
@[simp] theorem memWrite_code : (memWrite s i v).code = s.code := by unfold memWrite; split <;> rfl

@[simp] theorem addCode_acc : (addCode s e).acc = s.acc := by unfold addCode; split <;> rfl
@[simp] theorem addCode_pc : (addCode s e).pc = s.pc := by unfold addCode; split <;> rfl
@[simp] theorem addCode_halted : (addCode s e).halted = s.halted := by unfold addCode; split <;> rfl
@[simp] theorem addCode_data : (addCode s e).data = s.data := by unfold addCode; split <;> rfl
@[simp] theorem addCode_changedDataIndex : (addCode s e).changedDataIndex = s.changedDataIndex := by
  unfold addCode; split <;> rfl

@[simp] theorem slot_advance (k : Fin Config.dataSlots) : (advance s).slot k = s.slot k := rfl
@[simp] theorem slot_writeAcc (k : Fin Config.dataSlots) : (writeAcc s v).slot k = s.slot k := rfl
@[simp] theorem slot_faultEntry (k : Fin Config.dataSlots) : (faultEntry s).slot k = s.slot k := rfl

end Sys2Proof.Machine
end

