-- ==== Sys2Proof/Laws/Assembler.lean ====
section
/-! SUPPORT. What one byte of a source does, the tokens of a written line, what the validating pass answers on a source
followed by more lines, and what the loading pass leaves. -/

namespace Sys2Proof.Machine

variable {w : Nat}

/-- Everything one byte of UTF-8 can do: end a character, or leave it to the bytes that follow. -/
theorem utf8From_cons_eq_some {pending : Option Utf8Sequence} {b : BitVec 8} {rest : List (BitVec 8)} {cs : List Char} :
    utf8From pending (b :: rest) = some cs ↔
      ∃ q, (pending.elim (utf8Lead? b) fun q => utf8Continue? q b) = some q ∧
        ((q.more = 0 ∧ ∃ c cs', q.char? = some c ∧ utf8From none rest = some cs' ∧ cs = c :: cs') ∨
          (q.more ≠ 0 ∧ utf8From (some q) rest = some cs)) := by
  rw [utf8From, Option.bind_eq_some_iff]
  refine exists_congr fun q => and_congr_right fun _ => ?_
  by_cases hq : q.more = 0
  · simp only [hq, if_true, Option.bind_eq_some_iff, Option.map_eq_some_iff, true_and, ne_eq, not_true_eq_false, false_and,
      or_false]
    constructor
    · rintro ⟨c, hc, cs', h, rfl⟩; exact ⟨c, cs', hc, h, rfl⟩
    · rintro ⟨c, cs', hc, h, rfl⟩; exact ⟨c, hc, cs', h, rfl⟩
  · simp [hq]

/-- A run of characters other than space and tab is read into one token. -/
theorem tokensFrom_run : ∀ {run : List Char} {cur : List Char} {rest : Line}, (∀ c ∈ run, isSpace c = false) →
    tokensFrom cur (run ++ rest) = tokensFrom (run.reverse ++ cur) rest
  | [], _, _, _ => rfl
  | c :: run, cur, rest, h => by
    rw [List.cons_append, tokensFrom, if_neg (by simp [h c (by simp)]), tokensFrom_run fun x hx => h x (by simp [hx])]
    simp

/-- Two words with a space between them are the two tokens of their line. -/
theorem tokens_pair {x y : List Char} (hx : ∀ c ∈ x, isSpace c = false) (hy : ∀ c ∈ y, isSpace c = false) (nx : x ≠ [])
    (ny : y ≠ []) : tokens (x ++ ' ' :: y) = [x, y] := by
  unfold tokens
  rw [tokensFrom_run hx, tokensFrom, if_pos (show isSpace ' ' = true from rfl), ← List.append_nil y, tokensFrom_run hy]
  simp [tokensFrom, nx, ny]

/-- A diagnostic stands whatever lines follow. -/
theorem validateFrom_error_append :
    ∀ {text more : List Line} {n b : Nat} {mode : SourceMode} {d : Diagnostic},
      validateFrom (w := w) n b mode text = .error d → validateFrom (w := w) n b mode (text ++ more) = .error d
  | [], _, _, _, _, _, h => by cases h
  | l :: r, more, n, b, mode, d, h => by
    simp only [List.cons_append]
    unfold validateFrom at h ⊢
    split at h
    · rw [if_pos ‹_›]; exact validateFrom_error_append h
    · rw [if_neg ‹_›]
      split at h
      · rw [if_pos ‹_›]; exact h
      · rw [if_neg ‹_›]
        split at h
        · exact h
        · exact validateFrom_error_append h
        · split at h
          · cases h
          · rename_i h'; cases h; rw [validateFrom_error_append h']

/-- Blank lines are counted and load nothing. -/
theorem validateFrom_blanks :
    ∀ {run : List Line} {n b : Nat} {mode : SourceMode} (more : List Line), (∀ l ∈ run, isBlank l = true) →
      validateFrom (w := w) n b mode (run ++ more) = validateFrom (n + run.length) (b + run.length) mode more
  | [], _, _, _, _, _ => rfl
  | l :: r, n, b, mode, more, h => by
    simp only [List.cons_append]
    rw [validateFrom, if_pos (h l (by simp)), validateFrom_blanks more fun x hx => h x (by simp [hx])]
    simp only [List.length_cons]
    congr 1 <;> omega

/-- After a legal source that ends in a non-blank line, validation goes on from the section it is in, with no blank line
pending. -/
theorem validateFrom_ok_append :
    ∀ {text : List Line} {n b : Nat} {mode : SourceMode} {items : List (Item w)}, validateFrom n b mode text = .ok items →
      (∀ last ∈ text.getLast?, isBlank last = false) →
      ∃ mode', ∀ more, validateFrom n b mode (text ++ more) =
        (validateFrom (n + text.length) (if text = [] then b else 0) mode' more).map (items ++ ·)
  | [], n, b, mode, items, h, _ => by
    cases h
    refine ⟨mode, fun more => ?_⟩
    simp only [List.nil_append, List.length_nil, Nat.add_zero, if_true]
    cases validateFrom n b mode more <;> simp [Except.map]
  | l :: r, n, b, mode, items, h, hl => by
    unfold validateFrom at h
    have hl' : ∀ last ∈ r.getLast?, isBlank last = false := by
      intro x hx
      apply hl
      cases r with
      | nil => cases hx
      | cons y ys => simpa [List.getLast?_cons_cons] using hx
    have hn : n + 1 + r.length = n + (r.length + 1) := by omega
    split at h
    · rename_i hbl
      have hr : r ≠ [] := by
        rintro rfl
        have := hl l (by simp)
        rw [hbl] at this
        cases this
      obtain ⟨m', hm⟩ := validateFrom_ok_append h hl'
      refine ⟨m', fun more => ?_⟩
      simp only [List.cons_append]
      rw [validateFrom, if_pos hbl, hm more]
      simp [hr, hn]
    · rename_i hbl
      split at h
      · cases h
      · rename_i h2
        split at h
        · cases h
        · rename_i hc
          obtain ⟨m', hm⟩ := validateFrom_ok_append h hl'
          refine ⟨m', fun more => ?_⟩
          simp only [List.cons_append]
          rw [validateFrom, if_neg hbl, if_neg h2, hc]
          simp only
          rw [hm more]
          simp [hn]
        · rename_i it hc
          split at h
          · rename_i its h'
            cases h
            obtain ⟨m', hm⟩ := validateFrom_ok_append h' hl'
            refine ⟨m', fun more => ?_⟩
            simp only [List.cons_append]
            rw [validateFrom, if_neg hbl, if_neg h2, hc]
            simp only
            rw [hm more]
            simp only [ite_self, List.length_cons, hn, reduceCtorEq, if_false]
            cases validateFrom (n + (r.length + 1)) 0 m' more <;> simp [Except.map]
          · cases h

/-- Assembling a source loads its items, of which a refused source has none. -/
theorem assemble_state (om : OpMap) (source : List (BitVec 8)) (s : State w) :
    (assemble om source s).1 = load om (itemsOf source) s := by
  unfold assemble itemsOf
  cases utf8Decode source with
  | none => rfl
  | some text =>
    simp only [assembleLines]
    cases validate (w := w) (sourceLines text) <;> rfl

/-- The loading pass touches no register of the host's. -/
theorem load_registers (om : OpMap) : ∀ (items : List (Item w)) (s : State w),
    (load om items s).acc = s.acc ∧ (load om items s).pc = s.pc ∧ (load om items s).halted = s.halted
  | [], _ => ⟨rfl, rfl, rfl⟩
  | .code m mode a :: rest, s => by
    have h := load_registers om rest (addCode s (encodeForm om m mode a))
    simp only [addCode_acc, addCode_pc, addCode_halted] at h
    exact h
  | .data i v :: rest, s => by
    have h := load_registers om rest (memWrite s i v)
    simp only [memWrite_acc, memWrite_pc, memWrite_halted] at h
    exact h

/-- Every entry the loading pass leaves was there before or is the entry of a form. -/
theorem mem_load_code {om : OpMap} {e : CodeEntry w} : ∀ {items : List (Item w)} {s : State w}, e ∈ (load om items s).code →
    e ∈ s.code ∨ ∃ m mode a, e = encodeForm om m mode a
  | [], _, h => .inl h
  | .code m mode a :: rest, s, h => by
    rcases mem_load_code (items := rest) (s := addCode s (encodeForm om m mode a)) h with h | h
    · unfold addCode at h
      split at h
      · rcases List.mem_append.1 h with h | h
        · exact .inl h
        · exact .inr ⟨m, mode, a, by simpa using h⟩
      · exact .inl h
    · exact .inr h
  | .data i v :: rest, s, h => by
    rcases mem_load_code (items := rest) (s := memWrite s i v) h with h | h
    · exact .inl (by simpa using h)
    · exact .inr h

end Sys2Proof.Machine
end

