-- ==== Sys2Proof/Laws/Decode.lean ====
section
/-! SUPPORT. The decoder's parts: which forms have a constructor, what the fields of an encoded opcode are, what an
injective map makes of a base opcode. -/

namespace Sys2Proof

variable {w : Nat}

/-- A form has a constructor exactly when it is legal, whatever the argument. -/
theorem ofForm_isSome (m : Mnemonic) (mode : AddrMode) (a : Word w) : (Instr.ofForm m mode a).isSome = Legal m mode := by
  cases m <;> cases mode <;> rfl

/-- The constructor of a form has that form. -/
theorem ofForm_eq_some {m : Mnemonic} {mode : AddrMode} {a : Word w} {i : Instr w} (h : Instr.ofForm m mode a = some i) :
    i.mnemonic = m ∧ i.mode = mode ∧ i.arg = a := by
  cases m <;> cases mode <;> simp only [Instr.ofForm, Option.some.injEq, reduceCtorEq] at h <;> subst h <;>
    exact ⟨rfl, rfl, rfl⟩

/-- The form of a constructor has that constructor. -/
theorem ofForm_self (i : Instr w) : Instr.ofForm i.mnemonic i.mode i.arg = some i := by cases i <;> rfl

@[simp] theorem ofBits_bits (mode : AddrMode) : AddrMode.ofBits mode.bits = mode := by cases mode <;> rfl

@[simp] theorem bits_ofBits : ∀ k : BitVec 2, (AddrMode.ofBits k).bits = k := by decide

/-- The base field of an encoded opcode. -/
theorem baseOpcode_encodeOpcode (b : BitVec 5) (mode : AddrMode) : baseOpcode (encodeOpcode b mode) = b := by
  revert b; cases mode <;> decide

/-- The mode field of an encoded opcode. -/
theorem modeBits_encodeOpcode (b : BitVec 5) (mode : AddrMode) : modeBits (encodeOpcode b mode) = mode.bits := by
  revert b; cases mode <;> decide

/-- The parity of an encoded opcode. -/
theorem parityOk_encodeOpcode (b : BitVec 5) (mode : AddrMode) : parityOk (encodeOpcode b mode) = true := by
  revert b; cases mode <;> decide

/-- An opcode of even parity is the encoding of its fields. -/
theorem encodeOpcode_fields : ∀ opcode : BitVec 8, parityOk opcode = true →
    encodeOpcode (baseOpcode opcode) (AddrMode.ofBits (modeBits opcode)) = opcode := by decide

/-- Every mnemonic is in the list of all. -/
theorem mem_all (m : Mnemonic) : m ∈ Mnemonic.all := by cases m <;> decide

/-- A well-formed map is injective. -/
theorem opMap_injective {om : OpMap} (h : om.wellFormed = true) {m n : Mnemonic} (hc : om.code m = om.code n) : m = n := by
  have := List.all_eq_true.1 (List.all_eq_true.1 h m (mem_all m)) n (mem_all n)
  simpa [hc] using this

/-- A base opcode's mnemonic has that base opcode. -/
theorem code_of_mnemonicOf {om : OpMap} {b : BitVec 5} {m : Mnemonic} (h : mnemonicOf om b = some m) : om.code m = b := by
  simpa using List.find?_some h

/-- A base opcode that no mnemonic has is unassigned. -/
theorem mnemonicOf_eq_none {om : OpMap} {b : BitVec 5} : mnemonicOf om b = none ↔ ∀ m, om.code m ≠ b := by
  simp only [mnemonicOf, List.find?_eq_none, beq_iff_eq]
  exact ⟨fun h m => h m (mem_all m), fun h m _ => h m⟩

/-- Under a well-formed map a mnemonic's base opcode is assigned to it. -/
theorem mnemonicOf_code {om : OpMap} (h : om.wellFormed = true) (m : Mnemonic) : mnemonicOf om (om.code m) = some m := by
  cases hm : mnemonicOf om (om.code m) with
  | none => exact absurd rfl (mnemonicOf_eq_none.1 hm m)
  | some n => rw [opMap_injective h (code_of_mnemonicOf hm)]

/-- The decoder on an entry is its verdict on the opcode, with the argument whole. -/
theorem decodeEntry_ok_iff {om : OpMap} {e : CodeEntry w} {i : Instr w} :
    decodeEntry om e = .ok i ↔ decodeOpcode om e.opcode = .ok (i.mnemonic, i.mode) ∧ i.arg = e.arg := by
  unfold decodeEntry
  split
  · simp [*]
  · rename_i m mode hd
    split
    · rename_i j hj
      obtain ⟨h1, h2, h3⟩ := ofForm_eq_some hj
      simp only [hd, Except.ok.injEq, Prod.mk.injEq]
      constructor
      · rintro rfl; exact ⟨⟨h1.symm, h2.symm⟩, h3⟩
      · rintro ⟨⟨rfl, rfl⟩, ha⟩
        rw [← ha, ofForm_self] at hj
        exact (Option.some.inj hj).symm
    · rename_i hj
      simp only [reduceCtorEq, hd, Except.ok.injEq, Prod.mk.injEq, false_iff]
      rintro ⟨⟨rfl, rfl⟩, ha⟩
      rw [← ha, ofForm_self] at hj
      exact absurd hj (by simp)

end Sys2Proof
end

