-- ==== Sys2Proof/Laws/Memory.lean ====
section
/-! SUPPORT. The laws of the sparse data store: what a write leaves to be read, and that it keeps the canonical form. -/

namespace Sys2Proof.Machine

variable {w : Nat}

/-- The canonical form, one entry at a time. -/
theorem wfFrom_cons {lo k : Nat} {v : Word w} {rest : Memory w} :
    Memory.wfFrom lo ((k, v) :: rest) = true ↔
      lo ≤ k ∧ k < Config.dataSlots ∧ v ≠ Memory.unlisted ∧ Memory.wfFrom (k + 1) rest = true := by
  simp [Memory.wfFrom, and_assoc]

/-- A store canonical from `lo` on is canonical from any lower index on. -/
theorem wfFrom_mono {lo lo' : Nat} (h : lo' ≤ lo) : ∀ {m : Memory w}, Memory.wfFrom lo m = true → Memory.wfFrom lo' m = true
  | [], _ => rfl
  | (k, v) :: rest, hm => by
    obtain ⟨h1, h2⟩ := wfFrom_cons.1 hm
    exact wfFrom_cons.2 ⟨by omega, h2⟩

/-- A store canonical from `lo` on lists nothing below `lo`. -/
theorem get_below {i lo : Nat} (h : i < lo) : ∀ {m : Memory w}, Memory.wfFrom lo m = true → m.get i = Memory.unlisted
  | [], _ => rfl
  | (k, v) :: rest, hm => by
    obtain ⟨h1, h2, h3, h4⟩ := wfFrom_cons.1 hm
    have : k ≠ i := by omega
    simp only [Memory.get, this, if_false]
    exact get_below (by omega) h4

/-- A write keeps the canonical form. -/
theorem wfFrom_set {i : Nat} (hi : i < Config.dataSlots) (v : Word w) :
    ∀ {lo : Nat} {m : Memory w}, lo ≤ i → Memory.wfFrom lo m = true → Memory.wfFrom lo (m.set i v) = true
  | lo, [], hlo, _ => by
    unfold Memory.set
    split
    · rfl
    · exact wfFrom_cons.2 ⟨hlo, hi, ‹_›, rfl⟩
  | lo, (k, w) :: rest, hlo, hm => by
    obtain ⟨h1, h2, h3, h4⟩ := wfFrom_cons.1 hm
    unfold Memory.set
    split
    · exact wfFrom_cons.2 ⟨h1, h2, h3, wfFrom_set hi v (by omega) h4⟩
    · split
      · subst i
        split
        · exact wfFrom_mono (by omega) h4
        · exact wfFrom_cons.2 ⟨h1, h2, ‹_›, h4⟩
      · split
        · exact hm
        · exact wfFrom_cons.2 ⟨hlo, hi, ‹_›, wfFrom_cons.2 ⟨by omega, h2, h3, h4⟩⟩

/-- A write keeps `Memory.wf`. -/
theorem wf_set {m : Memory w} {i : Nat} (hi : i < Config.dataSlots) (v : Word w) (hm : m.wf = true) : (m.set i v).wf = true :=
  wfFrom_set hi v (Nat.zero_le i) hm

/-- The slot written reads as what was written. -/
theorem get_set_same (i : Nat) (v : Word w) :
    ∀ {lo : Nat} {m : Memory w}, Memory.wfFrom lo m = true → (m.set i v).get i = v
  | _, [], _ => by
    unfold Memory.set
    split <;> simp_all [Memory.get]
  | lo, (k, w) :: rest, hm => by
    obtain ⟨h1, h2, h3, h4⟩ := wfFrom_cons.1 hm
    unfold Memory.set
    split
    · have hk : k ≠ i := by omega
      simp only [Memory.get, hk, if_false]
      exact get_set_same i v h4
    · split
      · subst i
        split
        · rw [get_below (by omega) h4]; exact Eq.symm ‹_›
        · simp [Memory.get]
      · split
        · have : i < k := by omega
          rw [get_below (lo := k) this (wfFrom_cons.2 ⟨le_refl k, h2, h3, h4⟩)]; exact Eq.symm ‹_›
        · simp [Memory.get]

/-- Every other slot reads as before. -/
theorem get_set_other {i j : Nat} (h : j ≠ i) (v : Word w) : ∀ (m : Memory w), (m.set i v).get j = m.get j
  | [] => by
    unfold Memory.set
    split <;> simp [Memory.get, Ne.symm h]
  | (k, w) :: rest => by
    unfold Memory.set
    split
    · simp only [Memory.get]
      split
      · rfl
      · exact get_set_other h v rest
    · split
      · subst i
        split <;> simp [Memory.get, Ne.symm h]
      · split <;> simp [Memory.get, Ne.symm h]

end Sys2Proof.Machine
end

