-- ==== Sys2Proof/Laws/Ops.lean ====
section
/-! SUPPORT. What the operations over memory, code and faults answer, said once. -/

namespace Sys2Proof.Machine

variable {w : Nat}

/-- The data address decoder on an index that is a slot's number. -/
theorem dataIndex?_eq_some {i : Word w} {k : Fin Config.dataSlots} : dataIndex? i = some k ↔ i.toInt = (k.val : Int) := by
  unfold dataIndex?
  split
  · simp only [Option.some.injEq, Fin.ext_iff]; omega
  · simp only [reduceCtorEq, false_iff]
    have := k.isLt
    omega

/-- The data address decoder on an index out of range. -/
theorem dataIndex?_eq_none {i : Word w} : dataIndex? i = none ↔ i.toInt < 0 ∨ 511 < i.toInt := by
  unfold dataIndex?
  split
  · simp only [reduceCtorEq, false_iff]; simp only [Config.dataSlots] at *; omega
  · simp only [true_iff]; simp only [Config.dataSlots] at *; omega

/-- A checked read in range. -/
theorem memRead_of_index {s : State w} {i : Word w} {k : Fin Config.dataSlots} (h : dataIndex? i = some k) :
    memRead s i = .ok (s.slot k) := by unfold memRead; rw [h]

/-- A checked read out of range. -/
theorem memRead_of_none {s : State w} {i : Word w} (h : dataIndex? i = none) : memRead s i = .error (.dataAccess i) := by
  unfold memRead; rw [h]

/-- All a checked read can answer. -/
theorem memRead_cases (s : State w) (i : Word w) :
    (∃ k, dataIndex? i = some k ∧ memRead s i = .ok (s.slot k)) ∨
      (dataIndex? i = none ∧ memRead s i = .error (.dataAccess i)) := by
  cases h : dataIndex? i with
  | some k => exact .inl ⟨k, rfl, memRead_of_index h⟩
  | none => exact .inr ⟨rfl, memRead_of_none h⟩

/-- A read looks at the data store alone. -/
theorem memRead_congr {s t : State w} (h : t.data = s.data) (i : Word w) : memRead t i = memRead s i := by
  unfold memRead State.slot; rw [h]

/-- A performed write. -/
theorem memWrite_of_index {s : State w} {i v : Word w} {k : Fin Config.dataSlots} (h : dataIndex? i = some k) :
    memWrite s i v = { s with data := s.data.set k.val v, changedDataIndex := some k } := by unfold memWrite; rw [h]

/-- A dropped write. -/
theorem memWrite_of_none {s : State w} {i v : Word w} (h : dataIndex? i = none) : memWrite s i v = s := by
  unfold memWrite; rw [h]

/-- A write, performed or dropped, keeps the canonical form. -/
theorem memWrite_wf {s : State w} {i v : Word w} (h : s.data.wf = true) : (memWrite s i v).data.wf = true := by
  unfold memWrite
  split
  · exact wf_set (Fin.isLt _) v h
  · exact h

/-- Every slot after a performed write. -/
theorem slot_memWrite {s : State w} {i v : Word w} {k : Fin Config.dataSlots} (hs : s.data.wf = true)
    (h : dataIndex? i = some k) (j : Fin Config.dataSlots) :
    (memWrite s i v).slot j = if k = j then v else s.slot j := by
  rw [memWrite_of_index h]
  unfold State.slot
  split
  · subst j; exact get_set_same k.val v hs
  · exact get_set_other (fun e => ‹¬k = j› (Fin.ext e.symm)) v s.data

/-- A slot that the index of a write does not name. -/
theorem slot_memWrite_other {s : State w} {i v : Word w} {j : Fin Config.dataSlots} (h : dataIndex? i ≠ some j) :
    (memWrite s i v).slot j = s.slot j := by
  cases hk : dataIndex? i with
  | none => rw [memWrite_of_none hk]
  | some k =>
    rw [memWrite_of_index hk]
    exact get_set_other (fun e => h (by rw [hk, Fin.ext e])) v s.data

/-- The code address decoder. -/
theorem inCode_iff {s : State w} {i : Word w} : inCode s i = true ↔ 0 ≤ i.toInt ∧ i.toInt < s.codeSize := by
  simp [inCode]

/-- A code read in range. -/
theorem codeRead_of_getElem {s : State w} {i : Word w} {k : Nat} {e : CodeEntry w} (hi : i.toInt = (k : Int))
    (h : s.code[k]? = some e) : codeRead s i = .ok e := by
  have hk : k < s.code.length := (List.getElem?_eq_some_iff.1 h).1
  have hin : inCode s i = true := inCode_iff.2 ⟨by omega, by simp only [State.codeSize]; omega⟩
  have : i.toInt.toNat = k := by omega
  unfold codeRead
  rw [if_pos hin, this, h]

/-- A code read out of range. -/
theorem codeRead_of_out {s : State w} {i : Word w} (h : i.toInt < 0 ∨ (s.codeSize : Int) ≤ i.toInt) :
    codeRead s i = .error (.codeAccess i) := by
  unfold codeRead
  rw [if_neg]
  rw [inCode_iff]; omega

/-- All a code read can answer. -/
theorem codeRead_cases (s : State w) (i : Word w) :
    (∃ (k : Nat) (e : CodeEntry w), i.toInt = (k : Int) ∧ s.code[k]? = some e ∧ codeRead s i = .ok e) ∨
      ((i.toInt < 0 ∨ (s.codeSize : Int) ≤ i.toInt) ∧ codeRead s i = .error (.codeAccess i)) := by
  by_cases h : 0 ≤ i.toInt ∧ i.toInt < s.codeSize
  · obtain ⟨k, hk⟩ := Int.eq_ofNat_of_zero_le h.1
    have hlt : k < s.code.length := by simp only [State.codeSize] at h; omega
    exact .inl ⟨k, s.code[k], hk, List.getElem?_eq_getElem hlt, codeRead_of_getElem hk (List.getElem?_eq_getElem hlt)⟩
  · have h' : i.toInt < 0 ∨ (s.codeSize : Int) ≤ i.toInt := by omega
    exact .inr ⟨h', codeRead_of_out h'⟩

/-- An append to a store that is not full. -/
theorem addCode_of_lt {s : State w} {e : CodeEntry w} (h : s.codeSize < Config.codeCap) :
    addCode s e = { s with code := s.code ++ [e] } := if_pos h

/-- An append to a full store. -/
theorem addCode_of_full {s : State w} {e : CodeEntry w} (h : Config.codeCap ≤ s.codeSize) : addCode s e = s :=
  if_neg (by omega)

/-- An append keeps the capacity. -/
theorem addCode_size {s : State w} {e : CodeEntry w} (h : s.codeSize ≤ Config.codeCap) :
    (addCode s e).codeSize ≤ Config.codeCap := by
  rcases Nat.lt_or_ge s.codeSize Config.codeCap with h' | h'
  · rw [addCode_of_lt h']; simp only [State.codeSize, List.length_append, List.length_singleton] at *; omega
  · rw [addCode_of_full h']; exact h

/-- `clear()` leaves the reset state, whatever was there before. -/
theorem clear_eq_resetAt (s : State w) : clear s = State.resetAt w := rfl

@[simp] theorem concludeState_ok (s t : State w) : concludeState s (.ok t) = t := rfl
@[simp] theorem concludeState_error (s : State w) (f : Fault w) : concludeState s (.error f) = faultEntry s := rfl
@[simp] theorem concludeReport_ok (s t : State w) (b : Bool) : concludeReport s b (.ok t) = ⟨t, .done, b⟩ := rfl
@[simp] theorem concludeReport_error (s : State w) (f : Fault w) (b : Bool) :
    concludeReport s b (.error f) = ⟨faultEntry s, .fault f, true⟩ := rfl

/-- The state of a report is the state of the outcome. -/
theorem concludeReport_state (s : State w) (b : Bool) (e : Effect w) :
    (concludeReport s b e).state = concludeState s e := by cases e <;> rfl

end Sys2Proof.Machine
end

