-- ==== Sys2Proof/Laws/Operands.lean ====
section
/-! SUPPORT. What the mux answers, and that it looks at the data store alone. -/

namespace Sys2Proof.Machine

variable {w : Nat}

@[simp] theorem operand_direct (a : Word w) (s : State w) : operand .direct a s = memRead s a := rfl
@[simp] theorem operand_immediate (a : Word w) (s : State w) : operand .immediate a s = .ok a := rfl

/-- The indirect operand with its pointer in range is the read of the slot pointed at. -/
theorem operand_indirect {a : Word w} {s : State w} {k : Fin Config.dataSlots} (h : dataIndex? a = some k) :
    operand .indirect a s = memRead s (s.slot k) := by
  unfold operand; rw [memRead_of_index h]

/-- The indirect operand with its pointer out of range. -/
theorem operand_indirect_none {a : Word w} {s : State w} (h : dataIndex? a = none) :
    operand .indirect a s = .error (.dataAccess a) := by
  unfold operand; rw [memRead_of_none h]

@[simp] theorem storeAddr_direct (a : Word w) (s : State w) : storeAddr .direct a s = .ok a := rfl
@[simp] theorem storeAddr_indirect (a : Word w) (s : State w) : storeAddr .indirect a s = memRead s a := rfl

@[simp] theorem jumpTarget_direct (a pc : Word w) (s : State w) : jumpTarget .direct a pc s = .ok (addW pc a) := rfl
@[simp] theorem jumpTarget_immediate (a pc : Word w) (s : State w) : jumpTarget .immediate a pc s = .ok a := rfl
@[simp] theorem jumpTarget_special (a pc : Word w) (s : State w) : jumpTarget .special a pc s = memRead s a := rfl

/-- The indirect target with its slot in range. -/
theorem jumpTarget_indirect {a pc : Word w} {s : State w} {k : Fin Config.dataSlots} (h : dataIndex? a = some k) :
    jumpTarget .indirect a pc s = .ok (addW pc (s.slot k)) := by
  unfold jumpTarget; rw [memRead_of_index h]

/-- The indirect target with its slot out of range. -/
theorem jumpTarget_indirect_none {a pc : Word w} {s : State w} (h : dataIndex? a = none) :
    jumpTarget .indirect a pc s = .error (.dataAccess a) := by
  unfold jumpTarget; rw [memRead_of_none h]

/-- The operand depends on the data store alone. -/
theorem operand_congr {s t : State w} (h : t.data = s.data) (mode : AddrMode) (a : Word w) :
    operand mode a t = operand mode a s := by
  cases mode <;> simp only [operand, memRead_congr h]

/-- The store address depends on the data store alone. -/
theorem storeAddr_congr {s t : State w} (h : t.data = s.data) (mode : AddrMode) (a : Word w) :
    storeAddr mode a t = storeAddr mode a s := by
  cases mode <;> simp only [storeAddr, memRead_congr h]

/-- The target depends on `pc` and the data store alone. -/
theorem jumpTarget_congr {s t : State w} (h : t.data = s.data) (mode : AddrMode) (a pc : Word w) :
    jumpTarget mode a pc t = jumpTarget mode a pc s := by
  cases mode <;> simp only [jumpTarget, memRead_congr h]

end Sys2Proof.Machine
end

