-- ==== Sys2Proof/Laws/Dispatch.lean ====
section
/-! SUPPORT. The outcome, the effect and the report of an instruction are one thing; what an effect can do, said once. -/

namespace Sys2Proof.Machine

variable {w : Nat}

/-- The outcome of an instruction is the state its effect concludes in. -/
theorem execAt_eq (i : Instr w) (s : State w) : execAt i s = .next (concludeState s (effect i s)) := rfl

/-- The outcome of an instruction is its report's state. -/
theorem execAt_report (i : Instr w) (s : State w) : execAt i s = .next (effectReport i s).state := by
  rw [execAt_eq, effectReport, concludeReport_state]

/-- The dispatch runs the effect of its instruction: at the default width, `exec` is `execAt`. -/
theorem exec_eq_execAt (i : Instr) (s : State) : exec i s = execAt i s := by cases i <;> rfl

/-- The outcome of an instruction on the host's interface. -/
theorem exec_eq (i : Instr) (s : State) : exec i s = .next (concludeState s (effect i s)) := exec_eq_execAt i s

/-- The outcome of a step is its report's state. -/
theorem stepWith_eq (om : OpMap) (s : State w) : stepWith om s = .next (stepReportWith om s).state := by
  unfold stepWith stepReportWith
  cases fetchDecode om s with
  | ok i => exact execAt_report i s
  | error f => rfl

/-- The step of the host's interface is the step of the default width and `OPMAP`. -/
theorem step_eq_stepWith (s : State) : step s = stepWith Config.opMap s := by
  unfold step stepWith
  cases fetchDecode Config.opMap s with
  | ok i => exact exec_eq_execAt i s
  | error f => rfl

/-- An effect with an operand: the result of one read, or its fault. -/
theorem operandEffect_cases (f : Word w → Word w → Word w) (mode : AddrMode) (a : Word w) (s : State w) :
    (∃ x, operand mode a s = .ok x ∧ operandEffect f mode a s = .ok (writeAcc s (f s.acc x))) ∨
      (∃ e, operand mode a s = .error e ∧ operandEffect f mode a s = .error e) := by
  unfold operandEffect
  cases h : operand mode a s with
  | ok x => exact .inl ⟨x, rfl, rfl⟩
  | error e => exact .inr ⟨e, rfl, rfl⟩

/-- Everything an effect that raises nothing can do: write the accumulator and advance; set `pc`; advance; write or drop
the accumulator at an index and advance; set `halted`. -/
theorem effect_cases {i : Instr w} {s t : State w} (h : effect i s = .ok t) :
    (∃ v, t = writeAcc s v) ∨ (∃ p, t = { s with pc := p }) ∨
      (i.mnemonic = .sto ∧ ∃ a, storeAddr i.mode i.arg s = .ok a ∧ t = advance (memWrite s a s.acc)) ∨
      (i.mnemonic = .halt ∧ t = { s with halted := true }) := by
  have value : ∀ {f : Word w → Word w → Word w} {mode : AddrMode} {a : Word w},
      operandEffect f mode a s = .ok t → ∃ v, t = writeAcc s v := by
    intro f mode a h
    rcases operandEffect_cases f mode a s with ⟨x, _, hx⟩ | ⟨e, _, he⟩
    · rw [hx] at h; exact ⟨_, (Except.ok.inj h).symm⟩
    · rw [he] at h; cases h
  have div : ∀ {mode : AddrMode} {a : Word w}, effectDiv mode a s = .ok t → ∃ v, t = writeAcc s v := by
    intro mode a h
    unfold effectDiv at h
    split at h
    · split at h
      · cases h
      · exact ⟨_, (Except.ok.inj h).symm⟩
    · cases h
  have lod : ∀ {mode : AddrMode} {a : Word w}, effectLod mode a s = .ok t → ∃ v, t = writeAcc s v := by
    intro mode a h
    unfold effectLod at h
    split at h
    · exact ⟨_, (Except.ok.inj h).symm⟩
    · cases h
  have land : ∀ {mode : AddrMode} {a : Word w}, effectAnd mode a s = .ok t → ∃ v, t = writeAcc s v := by
    intro mode a h
    unfold effectAnd at h
    split at h
    · exact ⟨_, (Except.ok.inj h).symm⟩
    · cases h
  have jump : ∀ {mode : AddrMode} {a : Word w}, effectJump mode a s = .ok t → ∃ p, t = { s with pc := p } := by
    intro mode a h
    unfold effectJump at h
    split at h
    · exact ⟨_, (Except.ok.inj h).symm⟩
    · cases h
  have jmpz : ∀ {mode : AddrMode} {a : Word w}, effectJmpz mode a s = .ok t → ∃ p, t = { s with pc := p } := by
    intro mode a h
    unfold effectJmpz at h
    split at h
    · exact jump h
    · exact ⟨_, (Except.ok.inj h).symm⟩
  have sto : ∀ {mode : AddrMode} {a : Word w}, effectSto mode a s = .ok t →
      ∃ b, storeAddr mode a s = .ok b ∧ t = advance (memWrite s b s.acc) := by
    intro mode a h
    unfold effectSto at h
    split at h
    · exact ⟨_, ‹_›, (Except.ok.inj h).symm⟩
    · cases h
  cases i <;> simp only [effect, effectAdd, effectSub, effectMul, effectCmpl, effectCmpz] at h
  case nop => exact .inr (.inl ⟨_, (Except.ok.inj h).symm⟩)
  case halt => exact .inr (.inr (.inr ⟨rfl, (Except.ok.inj h).symm⟩))
  case not => exact .inl ⟨_, (Except.ok.inj h).symm⟩
  case cmpl =>
    split at h
    · exact .inl ⟨_, (Except.ok.inj h).symm⟩
    · cases h
  case cmpz =>
    split at h
    · exact .inl ⟨_, (Except.ok.inj h).symm⟩
    · cases h
  case stoDirect => exact .inr (.inr (.inl ⟨rfl, sto h⟩))
  case stoIndirect => exact .inr (.inr (.inl ⟨rfl, sto h⟩))
  case divDirect => exact .inl (div h)
  case divImmediate => exact .inl (div h)
  case divIndirect => exact .inl (div h)
  case lodDirect => exact .inl (lod h)
  case lodImmediate => exact .inl (lod h)
  case lodIndirect => exact .inl (lod h)
  case andDirect => exact .inl (land h)
  case andImmediate => exact .inl (land h)
  case jumpDirect => exact .inr (.inl (jump h))
  case jumpImmediate => exact .inr (.inl (jump h))
  case jumpIndirect => exact .inr (.inl (jump h))
  case jumpSpecial => exact .inr (.inl (jump h))
  case jmpzDirect => exact .inr (.inl (jmpz h))
  case jmpzImmediate => exact .inr (.inl (jmpz h))
  case jmpzIndirect => exact .inr (.inl (jmpz h))
  case jmpzSpecial => exact .inr (.inl (jmpz h))
  all_goals exact .inl (value h)

/-- Everything a step can report: a fault of fetch or decode, a fault of the effect, or a completed effect. -/
theorem stepReportWith_cases (om : OpMap) (s : State w) :
    (∃ f, fetchDecode om s = .error f ∧ stepReportWith om s = ⟨faultEntry s, .fault f, true⟩) ∨
      (∃ i f, fetchDecode om s = .ok i ∧ effect i s = .error f ∧ stepReportWith om s = ⟨faultEntry s, .fault f, true⟩) ∨
      (∃ i t, fetchDecode om s = .ok i ∧ effect i s = .ok t ∧ stepReportWith om s = ⟨t, .done, isHalt i⟩) := by
  unfold stepReportWith
  cases hf : fetchDecode om s with
  | error f => exact .inl ⟨f, rfl, rfl⟩
  | ok i =>
    cases he : effect i s with
    | error f => exact .inr (.inl ⟨i, f, rfl, he, by simp [effectReport, he]⟩)
    | ok t => exact .inr (.inr ⟨i, t, rfl, he, by simp [effectReport, he]⟩)

end Sys2Proof.Machine
end

