-- ==== Sys2Proof/Laws/Claims.lean ====
section
/-! SUPPORT. The operations and the terms of Safety.lean are the same thing: what the mux answers is what the claims call
the operand, the store index and the target; what a step fetches; the faults an operand can raise. -/

namespace Sys2Proof.Machine

variable {w : Nat}

/-- Equal signed values are equal words. -/
theorem word_ext {i j : Word w} (h : i.toInt = j.toInt) : i = j := BitVec.eq_of_toInt_eq h

/-- An index names at most one slot. -/
theorem namesSlot_unique {i : Word w} {k j : Fin Config.dataSlots} (hk : NamesSlot i k) (hj : NamesSlot i j) : k = j :=
  Fin.ext (by unfold NamesSlot at hk hj; omega)

/-- An index that names no slot is one the address decoder refuses. -/
theorem dataIndex?_isSome {i : Word w} : (dataIndex? i).isSome = true ↔ ¬ NamesNoSlot i := by
  rw [NamesNoSlot, ← dataIndex?_eq_none]
  cases dataIndex? i <;> simp

/-- A checked read answers the slot the index names. -/
theorem memRead_ok_iff {s : State w} {a x : Word w} : memRead s a = .ok x ↔ ∃ k, NamesSlot a k ∧ x = s.slot k := by
  rcases memRead_cases s a with ⟨k, hk, h⟩ | ⟨hk, h⟩ <;> rw [h]
  · constructor
    · rintro ⟨⟩; exact ⟨k, dataIndex?_eq_some.1 hk, rfl⟩
    · rintro ⟨j, hj, rfl⟩; rw [namesSlot_unique (dataIndex?_eq_some.1 hk) hj]
  · constructor
    · rintro ⟨⟩
    · rintro ⟨j, hj, rfl⟩; rw [dataIndex?_eq_some.2 hj] at hk; cases hk

/-- A checked read fails only with Data-Access, on an index that names no slot. -/
theorem memRead_error {s : State w} {a : Word w} {f : Fault w} (h : memRead s a = .error f) :
    f = .dataAccess a ∧ NamesNoSlot a := by
  rcases memRead_cases s a with ⟨k, hk, h'⟩ | ⟨hk, h'⟩ <;> rw [h'] at h <;> cases h
  exact ⟨rfl, dataIndex?_eq_none.1 hk⟩

/-- The operand. -/
theorem operand_ok_iff {mode : AddrMode} {a x : Word w} {s : State w} : operand mode a s = .ok x ↔ OperandIs mode a s x := by
  cases mode with
  | direct => exact memRead_ok_iff
  | immediate => simp [OperandIs, eq_comm]
  | special => simp [operand, OperandIs]
  | indirect =>
    unfold operand OperandIs
    cases h : memRead s a with
    | ok i =>
      obtain ⟨k, hk, rfl⟩ := memRead_ok_iff.1 h
      simp only [memRead_ok_iff]
      constructor
      · rintro ⟨j, hj, rfl⟩; exact ⟨k, j, hk, hj, rfl⟩
      · rintro ⟨k', j, hk', hj, rfl⟩
        cases namesSlot_unique hk' hk
        exact ⟨j, hj, rfl⟩
    | error f =>
      simp only [reduceCtorEq, false_iff]
      rintro ⟨k, j, hk, hj, rfl⟩
      rw [memRead_ok_iff.2 ⟨k, hk, rfl⟩] at h
      cases h

/-- The store index. -/
theorem storeAddr_ok_iff {mode : AddrMode} {a x : Word w} {s : State w} :
    storeAddr mode a s = .ok x ↔ StoreIndexIs mode a s x := by
  cases mode with
  | direct => simp [StoreIndexIs, eq_comm]
  | immediate => simp [storeAddr, StoreIndexIs]
  | special => simp [storeAddr, StoreIndexIs]
  | indirect => exact memRead_ok_iff

/-- The target of a jump. -/
theorem jumpTarget_ok_iff {mode : AddrMode} {a x : Word w} {s : State w} :
    jumpTarget mode a s.pc s = .ok x ↔ TargetIs mode a s x := by
  cases mode with
  | direct => simp [TargetIs, eq_comm, addW]
  | immediate => simp [TargetIs, eq_comm]
  | special => exact memRead_ok_iff
  | indirect =>
    unfold jumpTarget TargetIs
    cases h : memRead s a with
    | ok i =>
      obtain ⟨k, hk, rfl⟩ := memRead_ok_iff.1 h
      simp only [Except.ok.injEq]
      constructor
      · rintro rfl; exact ⟨k, hk, rfl⟩
      · rintro ⟨k', hk', rfl⟩
        cases namesSlot_unique hk' hk
        rfl
    | error f =>
      simp only [reduceCtorEq, false_iff]
      rintro ⟨k, hk, rfl⟩
      rw [memRead_ok_iff.2 ⟨k, hk, rfl⟩] at h
      cases h

/-- The faults of an operand read. -/
theorem operand_of_faults {mode : AddrMode} {a bad : Word w} {s : State w} (h : OperandFaults mode a s bad) :
    operand mode a s = .error (.dataAccess bad) := by
  cases mode with
  | direct => obtain ⟨hn, rfl⟩ := h; exact memRead_of_none (dataIndex?_eq_none.2 hn)
  | immediate => cases h
  | special => cases h
  | indirect =>
    rcases h with ⟨hn, rfl⟩ | ⟨k, hk, hn, rfl⟩
    · exact operand_indirect_none (dataIndex?_eq_none.2 hn)
    · rw [operand_indirect (dataIndex?_eq_some.2 hk)]
      exact memRead_of_none (dataIndex?_eq_none.2 hn)

/-- The operand of a mode other than special fails only with Data-Access. -/
theorem operand_error {mode : AddrMode} {a : Word w} {s : State w} {f : Fault w} (hm : mode ≠ .special)
    (h : operand mode a s = .error f) : ∃ bad, f = .dataAccess bad ∧ NamesNoSlot bad := by
  cases mode with
  | direct => exact ⟨_, memRead_error h⟩
  | immediate => cases h
  | special => exact absurd rfl hm
  | indirect =>
    unfold operand at h
    simp only at h
    split at h
    · exact ⟨_, memRead_error h⟩
    · cases h; exact ⟨_, memRead_error ‹_›⟩

/-- The store index in STO's two modes fails only with Data-Access. -/
theorem storeAddr_error {mode : AddrMode} {a : Word w} {s : State w} {f : Fault w} (hm : mode ≠ .special)
    (hm' : mode ≠ .immediate) (h : storeAddr mode a s = .error f) : ∃ bad, f = .dataAccess bad ∧ NamesNoSlot bad := by
  cases mode with
  | direct => cases h
  | immediate => exact absurd rfl hm'
  | special => exact absurd rfl hm
  | indirect => exact ⟨_, memRead_error h⟩

/-- The target of a jump fails only with Data-Access. -/
theorem jumpTarget_error {mode : AddrMode} {a pc : Word w} {s : State w} {f : Fault w} (h : jumpTarget mode a pc s = .error f) :
    ∃ bad, f = .dataAccess bad ∧ NamesNoSlot bad := by
  cases mode with
  | direct => cases h
  | immediate => cases h
  | special => exact ⟨_, memRead_error h⟩
  | indirect =>
    unfold jumpTarget at h
    simp only at h
    split at h
    · cases h
    · cases h; exact ⟨_, memRead_error ‹_›⟩

/-- A step fetches at most one entry. -/
theorem fetches_unique {s : State w} {e e' : CodeEntry w} (h : Fetches s e) (h' : Fetches s e') : e = e' := by
  obtain ⟨k, hk, he⟩ := h
  obtain ⟨k', hk', he'⟩ := h'
  have : k = k' := by omega
  subst this
  rw [he] at he'
  exact Option.some.inj he'

/-- Fetch and decode of an entry that decodes. -/
theorem fetchDecode_ok {om : OpMap} {s : State w} {e : CodeEntry w} {i : Instr w} (hf : Fetches s e)
    (hd : decodeEntry om e = .ok i) : fetchDecode om s = .ok i := by
  obtain ⟨k, hk, he⟩ := hf
  unfold fetchDecode
  rw [codeRead_of_getElem hk he]
  simp only [hd]

/-- Fetch and decode of an entry that the decoder refuses. -/
theorem fetchDecode_refused {om : OpMap} {s : State w} {e : CodeEntry w} {f : DecodeFault} (hf : Fetches s e)
    (hd : decodeEntry om e = .error f) : fetchDecode om s = .error (faultOfDecode f) := by
  obtain ⟨k, hk, he⟩ := hf
  unfold fetchDecode
  rw [codeRead_of_getElem hk he]
  simp only [hd]

/-- A step whose fetch or decode faults. -/
theorem stepReportWith_of_error {om : OpMap} {s : State w} {f : Fault w} (h : fetchDecode om s = .error f) :
    stepReportWith om s = faultReport s f := by
  unfold stepReportWith
  rw [h]
  rfl

/-- A step that decodes. -/
theorem stepReportWith_of_ok {om : OpMap} {s : State w} {i : Instr w} (h : fetchDecode om s = .ok i) :
    stepReportWith om s = effectReport i s := by
  unfold stepReportWith
  rw [h]

/-- An accepted opcode, check by check. -/
theorem decodeOpcode_ok_iff {om : OpMap} {opcode : BitVec 8} {m : Mnemonic} {mode : AddrMode} :
    decodeOpcode om opcode = .ok (m, mode) ↔
      parityOk opcode = true ∧ mnemonicOf om (baseOpcode opcode) = some m ∧ mode = AddrMode.ofBits (modeBits opcode) ∧
        Legal m mode = true := by
  unfold decodeOpcode
  split
  · split
    · simp [*]
    · split
      · simp only [Except.ok.injEq, Prod.mk.injEq]
        constructor
        · rintro ⟨rfl, rfl⟩; simp [*]
        · rintro ⟨_, h, rfl, _⟩; simp_all
      · simp only [reduceCtorEq, false_iff]
        rintro ⟨_, h, rfl, hl⟩
        simp_all
  · simp [*]

/-- The result of an execution tells what its effect was. -/
theorem effectReport_fault_iff {i : Instr w} {s : State w} {f : Fault w} :
    (effectReport i s).result = .fault f ↔ effect i s = .error f := by
  unfold effectReport
  cases effect i s <;> simp

end Sys2Proof.Machine
end

