-- ==== Sys2Proof/Laws/PerInstr.lean ====
section
/-! SUPPORT. One fact of every instruction as syntax: its form is legal, and is the form of its own constructor
(30_encoding.md R97). -/

namespace Sys2Proof.Laws

/-- The instruction is well formed, and its mnemonic, mode and argument name it again. -/
def Form.Statement (i : Instr) : Prop := i.wellFormed = true ∧ Instr.ofForm i.mnemonic i.mode i.arg = some i

theorem Form.nop (a : Word) : Form.Statement (.nop a) := ⟨rfl, rfl⟩
theorem Form.addDirect (a : Word) : Form.Statement (.addDirect a) := ⟨rfl, rfl⟩
theorem Form.addImmediate (a : Word) : Form.Statement (.addImmediate a) := ⟨rfl, rfl⟩
theorem Form.addIndirect (a : Word) : Form.Statement (.addIndirect a) := ⟨rfl, rfl⟩
theorem Form.subDirect (a : Word) : Form.Statement (.subDirect a) := ⟨rfl, rfl⟩
theorem Form.subImmediate (a : Word) : Form.Statement (.subImmediate a) := ⟨rfl, rfl⟩
theorem Form.subIndirect (a : Word) : Form.Statement (.subIndirect a) := ⟨rfl, rfl⟩
theorem Form.mulDirect (a : Word) : Form.Statement (.mulDirect a) := ⟨rfl, rfl⟩
theorem Form.mulImmediate (a : Word) : Form.Statement (.mulImmediate a) := ⟨rfl, rfl⟩
theorem Form.mulIndirect (a : Word) : Form.Statement (.mulIndirect a) := ⟨rfl, rfl⟩
theorem Form.divDirect (a : Word) : Form.Statement (.divDirect a) := ⟨rfl, rfl⟩
theorem Form.divImmediate (a : Word) : Form.Statement (.divImmediate a) := ⟨rfl, rfl⟩
theorem Form.divIndirect (a : Word) : Form.Statement (.divIndirect a) := ⟨rfl, rfl⟩
theorem Form.halt (a : Word) : Form.Statement (.halt a) := ⟨rfl, rfl⟩
theorem Form.jumpDirect (a : Word) : Form.Statement (.jumpDirect a) := ⟨rfl, rfl⟩
theorem Form.jumpImmediate (a : Word) : Form.Statement (.jumpImmediate a) := ⟨rfl, rfl⟩
theorem Form.jumpIndirect (a : Word) : Form.Statement (.jumpIndirect a) := ⟨rfl, rfl⟩
theorem Form.jumpSpecial (a : Word) : Form.Statement (.jumpSpecial a) := ⟨rfl, rfl⟩
theorem Form.jmpzDirect (a : Word) : Form.Statement (.jmpzDirect a) := ⟨rfl, rfl⟩
theorem Form.jmpzImmediate (a : Word) : Form.Statement (.jmpzImmediate a) := ⟨rfl, rfl⟩
theorem Form.jmpzIndirect (a : Word) : Form.Statement (.jmpzIndirect a) := ⟨rfl, rfl⟩
theorem Form.jmpzSpecial (a : Word) : Form.Statement (.jmpzSpecial a) := ⟨rfl, rfl⟩
theorem Form.lodDirect (a : Word) : Form.Statement (.lodDirect a) := ⟨rfl, rfl⟩
theorem Form.lodImmediate (a : Word) : Form.Statement (.lodImmediate a) := ⟨rfl, rfl⟩
theorem Form.lodIndirect (a : Word) : Form.Statement (.lodIndirect a) := ⟨rfl, rfl⟩
theorem Form.stoDirect (a : Word) : Form.Statement (.stoDirect a) := ⟨rfl, rfl⟩
theorem Form.stoIndirect (a : Word) : Form.Statement (.stoIndirect a) := ⟨rfl, rfl⟩
theorem Form.not (a : Word) : Form.Statement (.not a) := ⟨rfl, rfl⟩
theorem Form.andDirect (a : Word) : Form.Statement (.andDirect a) := ⟨rfl, rfl⟩
theorem Form.andImmediate (a : Word) : Form.Statement (.andImmediate a) := ⟨rfl, rfl⟩
theorem Form.cmpl (a : Word) : Form.Statement (.cmpl a) := ⟨rfl, rfl⟩
theorem Form.cmpz (a : Word) : Form.Statement (.cmpz a) := ⟨rfl, rfl⟩

end Sys2Proof.Laws
end

