-- ==== Sys2Proof/Tests/Slice0.lean ====
section
/-! SUPPORT. Tests: the checks on ill-formed terms, the decoding of every constructor's word, single steps and source lines
with the results that 95_test_vectors.md gives (its row is named in each comment), and the witnesses that the hypotheses of
the statements are met. -/

namespace Sys2Proof.Tests

open Sys2Proof Sys2Proof.Machine

/-! ## The checks refuse ill-formed terms -/

/-- Forms outside the table of 30_encoding.md R97, one for each mnemonic that has one; JUMP and JMPZ have none. -/
theorem test_illegal_forms_refused :
    [Legal .nop .immediate, Legal .add .special, Legal .sub .special, Legal .mul .special, Legal .div .special,
      Legal .halt .special, Legal .lod .special, Legal .sto .immediate, Legal .not .indirect, Legal .and .indirect,
      Legal .cmpl .immediate, Legal .cmpz .indirect] = List.replicate 12 false := by decide

/-- 24 of the 56 forms are illegal, 32 legal (30_encoding.md R97). -/
theorem test_legal_form_count :
    (Mnemonic.all.flatMap fun m => [AddrMode.direct, .immediate, .indirect, .special].map (Legal m)).countP id = 32 := by
  decide

/-- A map that gives two mnemonics one base opcode is none the spec admits (00_scope.md R6). -/
theorem test_opmap_not_injective_refused :
    (OpMap.wellFormed ⟨fun m => if m = .cmpz then 0 else Config.opMap.code m⟩) = false := by decide

/-- The default map is admitted. -/
theorem test_default_opmap : Config.opMap.wellFormed = true := by decide

/-- A width too small for the code indices is refused, the least one admitted is 10 (00_scope.md R6). -/
theorem test_width_bounds : Config.widthOk 9 = false ∧ Config.widthOk 10 = true ∧ Config.widthOk Config.width = true := by
  decide

/-- Instructions are well formed by construction: the one with the most modes and the one with the fewest. -/
theorem test_instr_wellFormed : (Instr.jmpzSpecial 511 : Instr).wellFormed = true ∧ (Instr.not 0 : Instr).wellFormed = true := by decide

/-- Data stores out of canonical form are refused: a slot holding 0 listed, an index listed twice, falling indices, an index
of no slot. -/
theorem test_memory_form_refused :
    [[(3, 0)], [(3, 1), (3, 2)], [(4, 1), (3, 1)], [(512, 1)], [(0, 1), (511, 1)]].map (Memory.wf (w := Config.width)) =
      [false, false, false, false, true] := by decide

/-! ## Decoding: the opcode bits are base opcode, mode, parity (30_encoding.md R91, R92, R96) -/

theorem test_decode_nop :
    decodeTableWord 8 0b00000000 = some (.nop 0) := by decide

theorem test_decode_add :
    decodeTableWord 8 0b00001001 = some (.addDirect 0) ∧ decodeTableWord 8 0b00001010 = some (.addImmediate 0) ∧
      decodeTableWord 8 0b00001100 = some (.addIndirect 0) := by decide

theorem test_decode_sub :
    decodeTableWord 8 0b00010001 = some (.subDirect 0) ∧ decodeTableWord 8 0b00010010 = some (.subImmediate 0) ∧
      decodeTableWord 8 0b00010100 = some (.subIndirect 0) := by decide

theorem test_decode_mul :
    decodeTableWord 8 0b00011000 = some (.mulDirect 0) ∧ decodeTableWord 8 0b00011011 = some (.mulImmediate 0) ∧
      decodeTableWord 8 0b00011101 = some (.mulIndirect 0) := by decide

theorem test_decode_div :
    decodeTableWord 8 0b00100001 = some (.divDirect 0) ∧ decodeTableWord 8 0b00100010 = some (.divImmediate 0) ∧
      decodeTableWord 8 0b00100100 = some (.divIndirect 0) := by decide

theorem test_decode_halt :
    decodeTableWord 8 0b00101000 = some (.halt 0) := by decide

theorem test_decode_jump :
    decodeTableWord 8 0b00110000 = some (.jumpDirect 0) ∧ decodeTableWord 8 0b00110011 = some (.jumpImmediate 0) ∧
      decodeTableWord 8 0b00110101 = some (.jumpIndirect 0) ∧ decodeTableWord 8 0b00110110 = some (.jumpSpecial 0) := by decide

theorem test_decode_jmpz :
    decodeTableWord 8 0b00111001 = some (.jmpzDirect 0) ∧ decodeTableWord 8 0b00111010 = some (.jmpzImmediate 0) ∧
      decodeTableWord 8 0b00111100 = some (.jmpzIndirect 0) ∧ decodeTableWord 8 0b00111111 = some (.jmpzSpecial 0) := by decide

theorem test_decode_lod :
    decodeTableWord 8 0b01000001 = some (.lodDirect 0) ∧ decodeTableWord 8 0b01000010 = some (.lodImmediate 0) ∧
      decodeTableWord 8 0b01000100 = some (.lodIndirect 0) := by decide

theorem test_decode_sto :
    decodeTableWord 8 0b01001000 = some (.stoDirect 0) ∧ decodeTableWord 8 0b01001101 = some (.stoIndirect 0) := by decide

theorem test_decode_not :
    decodeTableWord 8 0b01010000 = some (.not 0) := by decide

theorem test_decode_and :
    decodeTableWord 8 0b01011001 = some (.andDirect 0) ∧ decodeTableWord 8 0b01011010 = some (.andImmediate 0) := by decide

theorem test_decode_cmpl :
    decodeTableWord 8 0b01100000 = some (.cmpl 0) := by decide

theorem test_decode_cmpz :
    decodeTableWord 8 0b01101001 = some (.cmpz 0) := by decide

/-- The `arg` of an entry is taken whole: bits from 8 up (log 6). -/
theorem test_decode_arg : decodeTableWord 40 (0b01000010 + 256 * 0xFFFFFFFD) = some (.lodImmediate (-3)) := by decide

/-- Rows E1 to E13: the encoder. -/
theorem test_encode_rows :
    [encodeOpcode 0 .direct, encodeOpcode 0 .immediate, encodeOpcode 0 .indirect, encodeOpcode 0 .special,
      encodeOpcode 1 .direct, encodeOpcode 8 .immediate, encodeOpcode 13 .special, encodeOpcode 14 .direct,
      encodeOpcode 16 .direct, encodeOpcode 21 .immediate, encodeOpcode 31 .direct, encodeOpcode 31 .indirect,
      encodeOpcode 31 .special] =
      [0x00, 0x03, 0x05, 0x06, 0x09, 0x42, 0x6F, 0x71, 0x81, 0xAA, 0xF9, 0xFC, 0xFF] := by decide

/-- Rows F4 to F7: odd parity, odd parity of an unassigned base, unassigned base 14, an illegal form. -/
theorem test_decode_refusals :
    [decodeOpcode Config.opMap 0x08, decodeOpcode Config.opMap 0x70, decodeOpcode Config.opMap 0x71,
      decodeOpcode Config.opMap 0x0F] =
      [.error (.parity 0x08), .error (.parity 0x70), .error (.unassignedOpcode 14), .error (.illegalInstruction 3)] := by
  decide

/-! ## Single steps -/

/-- A machine whose next step fetches `(opcode, arg)`, NOPs standing before it. -/
def cpu (acc pc : Word) (data : Memory) (opcode : BitVec 8) (arg : Word) : State where
  acc := acc
  pc := pc
  halted := false
  data := data
  code := List.replicate pc.toNat ⟨0, 0⟩ ++ [⟨opcode, arg⟩]
  changedDataIndex := none

/-- What a step leaves in `acc` and `pc`, its result and its signal. -/
def outcome (s : State) : Word × Word × StepResult × Bool :=
  ((stepReport s).state.acc, (stepReport s).state.pc, (stepReport s).result, (stepReport s).haltSignal)

/-- The largest and the smallest word. -/
def MAX : Word := 2147483647
def MIN : Word := -2147483648

/-- Rows N1, N2. -/
theorem test_nop :
    outcome (cpu 3 2 [] 0x00 0) = (3, 3, .done, false) ∧
      outcome (cpu 3 2 [] 0x00 99) = (3, 3, .done, false) := by decide

/-- Rows N3, N4: HALT, then HALT again. -/
theorem test_halt :
    outcome (cpu 3 2 [] 0x28 0) = (3, 2, .done, true) ∧ (stepReport (cpu 3 2 [] 0x28 0)).state.halted = true ∧
      stepReport (stepReport (cpu 3 2 [] 0x28 0)).state = stepReport (cpu 3 2 [] 0x28 0) := by decide

/-- Rows A1, A22, A23. -/
theorem test_addDirect :
    outcome (cpu 5 0 [(10, 3)] 0x09 10) = (8, 1, .done, false) ∧
      outcome (cpu 1 0 [] 0x09 512) = (1, 0, .fault (.dataAccess 512), true) ∧
      outcome (cpu 1 0 [] 0x09 (-1)) = (1, 0, .fault (.dataAccess (-1)), true) := by decide

/-- Rows A6, A7. -/
theorem test_addImmediate :
    outcome (cpu MAX 7 [] 0x0A (-1)) = (2147483646, 8, .done, false) ∧
      outcome (cpu MAX 7 [] 0x0A 1) = (MIN, 8, .done, false) := by decide

/-- Rows A19, A20, A21. -/
theorem test_addIndirect :
    outcome (cpu 1 0 [(20, 30), (30, 41)] 0x0C 20) = (42, 1, .done, false) ∧
      outcome (cpu 1 0 [(20, 512)] 0x0C 20) = (1, 0, .fault (.dataAccess 512), true) ∧
      outcome (cpu 1 0 [(20, -1)] 0x0C 20) = (1, 0, .fault (.dataAccess (-1)), true) := by decide

/-- Row A2. -/
theorem test_subDirect :
    outcome (cpu 5 0 [(10, 3)] 0x11 10) = (2, 1, .done, false) := by decide

/-- Row A8. -/
theorem test_subImmediate :
    outcome (cpu MIN 0 [] 0x12 1) = (MAX, 1, .done, false) := by decide

/-- Row A27. -/
theorem test_subIndirect :
    outcome (cpu 10 0 [(10, 11), (11, 4)] 0x14 10) = (6, 1, .done, false) := by decide

/-- Row A3. -/
theorem test_mulDirect :
    outcome (cpu 5 0 [(10, 3)] 0x18 10) = (15, 1, .done, false) := by decide

/-- Rows A9, A10, A11. -/
theorem test_mulImmediate :
    outcome (cpu MIN 0 [] 0x1B 2) = (0, 1, .done, false) ∧
      outcome (cpu 65536 0 [] 0x1B 65536) = (0, 1, .done, false) ∧
      outcome (cpu MIN 0 [] 0x1B (-1)) = (MIN, 1, .done, false) := by decide

/-- Row A28. -/
theorem test_mulIndirect :
    outcome (cpu (-3) 0 [(10, 10)] 0x1D 10) = (-30, 1, .done, false) := by decide

/-- Rows A4, A5, F9. -/
theorem test_divDirect :
    outcome (cpu 5 0 [(10, 3)] 0x21 10) = (1, 1, .done, false) ∧
      outcome (cpu 5 0 [] 0x21 10) = (5, 0, .fault .divideByZero, true) ∧
      outcome (cpu 9 0 [] 0x21 512) = (9, 0, .fault (.dataAccess 512), true) := by decide

/-- Rows A13, A14, A16, A17. -/
theorem test_divImmediate :
    outcome (cpu (-7) 0 [] 0x22 2) = (-3, 1, .done, false) ∧
      outcome (cpu 7 0 [] 0x22 (-2)) = (-3, 1, .done, false) ∧
      outcome (cpu MIN 0 [] 0x22 (-1)) = (MIN, 1, .done, false) ∧
      outcome (cpu 9 3 [] 0x22 0) = (9, 3, .fault .divideByZero, true) := by decide

/-- Rows A25, F10, F12: the divisor is 0; the host puts 3 there; the next step divides, and the machine stays HALTED. -/
theorem test_divIndirect :
    outcome (cpu 9 0 [(20, 30)] 0x24 20) = (9, 0, .fault .divideByZero, true) ∧
      outcome (hostSetData (stepReport (cpu 9 0 [(20, 30)] 0x24 20)).state 30 3) = (3, 1, .done, false) ∧
      (stepReport (hostSetData (stepReport (cpu 9 0 [(20, 30)] 0x24 20)).state 30 3)).state.halted = true := by decide

/-- Rows J1, J2, J3. -/
theorem test_jumpDirect :
    outcome (cpu 0 4 [] 0x30 3) = (0, 7, .done, false) ∧
      outcome (cpu 0 4 [] 0x30 (-4)) = (0, 0, .done, false) ∧
      outcome (cpu 0 4 [] 0x30 0) = (0, 4, .done, false) := by decide

/-- Rows J5, J7. -/
theorem test_jumpImmediate :
    outcome (cpu 0 4 [] 0x33 9) = (0, 9, .done, false) ∧
      outcome (cpu 0 4 [] 0x33 (-1)) = (0, -1, .done, false) := by decide

/-- Rows J8, J10. -/
theorem test_jumpIndirect :
    outcome (cpu 0 4 [(16, -2)] 0x35 16) = (0, 2, .done, false) ∧
      outcome (cpu 0 4 [] 0x35 600) = (0, 4, .fault (.dataAccess 600), true) := by decide

/-- Rows J9, J11. -/
theorem test_jumpSpecial :
    outcome (cpu 0 4 [(16, 2)] 0x36 16) = (0, 2, .done, false) ∧
      outcome (cpu 0 4 [] 0x36 (-5)) = (0, 4, .fault (.dataAccess (-5)), true) := by decide

/-- Rows J13, J14. -/
theorem test_jmpzDirect :
    outcome (cpu 0 4 [] 0x39 3) = (0, 7, .done, false) ∧
      outcome (cpu 1 4 [] 0x39 3) = (1, 5, .done, false) := by decide

/-- Rows J15, J16. -/
theorem test_jmpzImmediate :
    outcome (cpu 0 4 [] 0x3A 9) = (0, 9, .done, false) ∧
      outcome (cpu (-1) 4 [] 0x3A 9) = (-1, 5, .done, false) := by decide

/-- Row J17. -/
theorem test_jmpzIndirect :
    outcome (cpu 0 4 [(16, 5)] 0x3C 16) = (0, 9, .done, false) := by decide

/-- Rows J18, J19, J20. -/
theorem test_jmpzSpecial :
    outcome (cpu 0 4 [(16, 2)] 0x3F 16) = (0, 2, .done, false) ∧
      outcome (cpu 7 4 [] 0x3F 600) = (7, 5, .done, false) ∧
      outcome (cpu 0 4 [] 0x3F 600) = (0, 4, .fault (.dataAccess 600), true) := by decide

/-- Rows L1, L5, L6. -/
theorem test_lodDirect :
    outcome (cpu 99 0 [(10, -3)] 0x41 10) = (-3, 1, .done, false) ∧
      outcome (cpu 1 0 [(511, 6)] 0x41 511) = (6, 1, .done, false) ∧
      outcome (cpu 1 0 [] 0x41 512) = (1, 0, .fault (.dataAccess 512), true) := by decide

/-- Rows L2, L3. -/
theorem test_lodImmediate :
    outcome (cpu 99 0 [] 0x42 (-3)) = (-3, 1, .done, false) ∧
      outcome (cpu 0 0 [] 0x42 2147483647) = (MAX, 1, .done, false) := by decide

/-- Rows L4, L7. -/
theorem test_lodIndirect :
    outcome (cpu 99 0 [(10, 11), (11, 77)] 0x44 10) = (77, 1, .done, false) ∧
      outcome (cpu 1 0 [(10, 512)] 0x44 10) = (1, 0, .fault (.dataAccess 512), true) := by decide

/-- Rows L9, L10, L11, L12: the data store and `changedDataIndex` after STO direct. -/
theorem test_stoDirect :
    (stepReport (cpu 42 0 [] 0x48 10)).state.data = [(10, 42)] ∧
      (stepReport (cpu 42 0 [] 0x48 511)).state.changedDataIndex = some 511 ∧
      (stepReport (cpu 42 0 [] 0x48 512)).state = { cpu 42 0 [] 0x48 512 with pc := 1 } ∧
      (stepReport (cpu 42 0 [] 0x48 (-1))).state = { cpu 42 0 [] 0x48 (-1) with pc := 1 } := by decide

/-- Rows L13, L14, L15, L16: STO indirect. -/
theorem test_stoIndirect :
    (stepReport (cpu 42 0 [(10, 11)] 0x4D 10)).state.data = [(10, 11), (11, 42)] ∧
      (stepReport (cpu 42 0 [(10, 600)] 0x4D 10)).state = { cpu 42 0 [(10, 600)] 0x4D 10 with pc := 1 } ∧
      (stepReport (cpu 42 0 [(10, 10)] 0x4D 10)).state.data = [(10, 42)] ∧
      outcome (cpu 42 0 [] 0x4D 600) = (42, 0, .fault (.dataAccess 600), true) := by decide

/-- Rows G1, G3. -/
theorem test_not :
    outcome (cpu 0 0 [] 0x50 0) = (1, 1, .done, false) ∧
      outcome (cpu (-5) 0 [] 0x50 0) = (0, 1, .done, false) := by decide

/-- Rows G7, G8, G9, G13. -/
theorem test_andDirect :
    outcome (cpu 6 0 [(10, 9)] 0x59 10) = (1, 1, .done, false) ∧
      outcome (cpu 0 0 [(10, 9)] 0x59 10) = (0, 1, .done, false) ∧
      outcome (cpu 5 0 [] 0x59 10) = (0, 1, .done, false) ∧
      outcome (cpu 0 0 [] 0x59 512) = (0, 0, .fault (.dataAccess 512), true) := by decide

/-- Rows G10, G12. -/
theorem test_andImmediate :
    outcome (cpu 5 0 [] 0x5A 0) = (0, 1, .done, false) ∧
      outcome (cpu 2 0 [] 0x5A 1) = (1, 1, .done, false) := by decide

/-- Rows G15, G16, G17, G18. -/
theorem test_cmpl :
    outcome (cpu 9 0 [(10, -1)] 0x60 10) = (1, 1, .done, false) ∧
      outcome (cpu 9 0 [] 0x60 10) = (0, 1, .done, false) ∧
      outcome (cpu 9 0 [(10, MIN)] 0x60 10) = (1, 1, .done, false) ∧
      outcome (cpu (-9) 0 [(10, 1)] 0x60 10) = (0, 1, .done, false) := by decide

/-- Rows G21, G22, G23. -/
theorem test_cmpz :
    outcome (cpu 9 0 [] 0x69 10) = (1, 1, .done, false) ∧
      outcome (cpu 0 0 [(10, 4)] 0x69 10) = (0, 1, .done, false) ∧
      outcome (cpu 9 0 [] 0x69 (-1)) = (9, 0, .fault (.dataAccess (-1)), true) := by decide

/-- Rows F1, F2, F3: Code-Access. -/
theorem test_code_access :
    (stepReport State.reset).result = .fault (.codeAccess 0) ∧
      (stepReport { cpu 0 0 [] 0x00 0 with pc := 1 }).result = .fault (.codeAccess 1) ∧
      (stepReport { cpu 0 0 [] 0x00 0 with pc := -1 }).result = .fault (.codeAccess (-1)) := by decide

/-- Row F14: `pc` one past the end of a full code store. -/
theorem test_code_access_full : (stepReport { cpu 0 255 [] 0x00 0 with pc := 256 }).result = .fault (.codeAccess 256) := by
  unfold stepReport stepReportWith fetchDecode
  rw [codeRead_of_out (.inr (by simp only [cpu, State.codeSize, List.length_append, List.length_replicate]; decide))]
  rfl

/-- Rows F4 to F8, A24, N5: the faults of decode come before any operand. -/
theorem test_fault_order :
    [(stepReport (cpu 1 0 [] 0x08 600)).result, (stepReport (cpu 1 0 [] 0x70 0)).result,
      (stepReport (cpu 1 0 [] 0x71 0)).result, (stepReport (cpu 1 0 [] 0x0F 600)).result,
      (stepReport (cpu 9 0 [] 0x27 10)).result, (stepReport (cpu 3 2 [] 0x03 0)).result] =
      [.fault (.parity 0x08), .fault (.parity 0x70), .fault (.unassignedOpcode 14), .fault (.illegalInstruction 3),
        .fault (.illegalInstruction 3), .fault (.illegalInstruction 1)] := by decide

/-- A fault changes `halted` only, on the host's interface too (60_exceptions.md R246). -/
theorem test_fault_is_a_next_state :
    step (cpu 5 0 [] 0x21 10) = .next { cpu 5 0 [] 0x21 10 with halted := true } := by rfl

/-- A table word placed at the fetch of the reset state runs (log 7). -/
theorem test_withFetchWord :
    step (State.reset.withFetchWord 8 0b00101000) =
      .next { State.reset.withFetchWord 8 0b00101000 with halted := true } := by rfl

/-! ## The stores and the host's ports -/

/-- Rows M1 to M5. -/
theorem test_mem_write :
    (memWrite State.reset 0 7).data = [(0, 7)] ∧ (memWrite State.reset 511 (-1)).changedDataIndex = some 511 ∧
      memWrite State.reset 512 7 = State.reset ∧ memWrite State.reset (-1) 7 = State.reset ∧
      (memWrite (memWrite State.reset 5 9) 5 0).data = [] := by decide

/-- Rows M7, M11, M14: the host's ports refuse and change nothing. -/
theorem test_host_refusals :
    serve Config.opMap (.getData 512) State.reset = (State.reset, .refused (.dataAccess 512)) ∧
      serve Config.opMap (.getCode 0) State.reset = (State.reset, .refused (.codeAccess 0)) ∧
      serve Config.opMap (.setCode 1 ⟨0x28, 0⟩) (cpu 0 0 [] 0 0) = (cpu 0 0 [] 0 0, .refused (.codeAccess 1)) := by decide

/-- Rows M8, M10, M13, M15: append and replace. -/
theorem test_host_code :
    (addCode State.reset ⟨0x42, 5⟩).code = [⟨0x42, 5⟩] ∧ (addCode State.reset ⟨0x01, 0⟩).codeSize = 1 ∧
      (serve Config.opMap (.setCode 0 ⟨0x28, 0⟩) (cpu 0 0 [] 0 0)).1.code = [⟨0x28, 0⟩] ∧
      (serve Config.opMap .programSize (cpu 0 2 [] 0 0)).2 = .size 3 := by decide

/-- Row M9: the append to a full store is dropped. -/
theorem test_add_code_full : addCode (cpu 0 255 [] 0 0) ⟨0, 0⟩ = cpu 0 255 [] 0 0 :=
  addCode_of_full (by simp only [cpu, State.codeSize, List.length_append, List.length_replicate]; decide)

/-- Row M16: `clear()`. -/
theorem test_clear : clear { cpu 7 3 [(5, 9)] 0x28 1 with halted := true, changedDataIndex := some 5 } = State.reset := by
  decide

/-- The range port: the end excluded; refused as a whole; empty when `lo >= hi` (20_memory.md R60, log 11). -/
theorem test_data_range :
    (serve Config.opMap (.getDataRange 4 7) (cpu 0 0 [(5, 9)] 0 0)).2 = .words [0, 9, 0] ∧
      (serve Config.opMap (.getDataRange 511 513) (cpu 0 0 [] 0 0)).2 = .refused (.dataAccess 512) ∧
      (serve Config.opMap (.getDataRange 7 7) (cpu 0 0 [] 0 0)).2 = .words [] := by decide

/-! ## The assembler -/

/-- A source text as its lines. -/
def source (ls : List String) : List Line := ls.map String.toList

/-- A source text as its bytes, the lines separated by line feeds; the characters of the tests are ASCII. -/
def bytes (ls : List String) : List (BitVec 8) :=
  ("\n".toList.intercalate (source ls)).map fun c => BitVec.ofNat 8 c.toNat

/-- The line and the message of a source's diagnostic. -/
def diagnostic (ls : List String) : Option (Nat × Message) :=
  match validate (w := Config.width) (source ls) with
  | .ok _ => none
  | .error d => some (d.line, d.message)

/-- The code a source loads. -/
def loadedCode (ls : List String) : List CodeEntry := (assemble Config.opMap (bytes ls) State.reset).1.code

/-- The data a source loads. -/
def loadedData (ls : List String) : Memory := (assemble Config.opMap (bytes ls) State.reset).1.data

/-- Rows T1 to T4. -/
theorem test_asm_blank_lines :
    [diagnostic ["NOP", "", "", "HALT"],
      diagnostic ["NOP", "HALT", "", "", " "],
      diagnostic ["NOP", "", "HALT"],
      diagnostic ["NOP", "", " ", "FOO 0A"]] =
      [some (2, .illegalBlankLine), none, none, some (2, .illegalBlankLine)] := by decide

/-- Rows T5, T6, T28, T29. -/
theorem test_asm_sections :
    [diagnostic ["NOP", "data", "10 05"],
      diagnostic ["NOP", "DATA", "10 05", "DATA"],
      diagnostic ["DATA 05"],
      diagnostic []] =
      [some (2, .dataNotUppercase), some (4, .secondData), some (1, .invalidMnemonic), none] := by decide

/-- Rows T7 to T9. -/
theorem test_asm_mnemonics :
    [diagnostic ["add 0A"],
      diagnostic ["FOO 0A"],
      diagnostic [" NOP"]] =
      [some (1, .mnemonicNotUppercase), some (1, .invalidMnemonic), some (1, .leadingWhitespace)] := by decide

/-- Rows T10 to T12, T21, T22, T30, T32. -/
theorem test_asm_arguments :
    [diagnostic ["NOP 05"],
      diagnostic ["ADD"],
      diagnostic ["ADD 01 02"],
      diagnostic ["ADD 0G"],
      diagnostic ["ADD M"],
      diagnostic ["LOD m05"],
      diagnostic ["NOT", "NOT 1"]] =
      [some (1, .tooManyArgs), some (1, .tooFewArgs), some (1, .tooManyArgs), some (1, .notHex),
        some (1, .notHex), some (1, .notHex), some (2, .tooManyArgs)] := by decide

/-- Rows T13 to T16. -/
theorem test_asm_prefixes :
    [diagnostic ["ADD J05"],
      diagnostic ["STO M05"],
      diagnostic ["AND N05"],
      diagnostic ["STO J05"],
      diagnostic ["CMPL J05"],
      diagnostic ["CMPZ M05"]] =
      [none, some (1, .illegalPrefix), some (1, .illegalPrefix), some (1, .illegalPrefix),
        some (1, .illegalPrefix), some (1, .illegalPrefix)] := by decide

/-- Rows T17 to T20. -/
theorem test_asm_data_lines :
    [diagnostic ["NOP", "DATA", "1G 05"],
      diagnostic ["NOP", "DATA", "10 0G"],
      diagnostic ["NOP", "DATA", "10"],
      diagnostic ["NOP", "DATA", "1G 0G"]] =
      [some (3, .dataAddrBad), some (3, .dataValueBad), some (3, .dataValueMissing), some (3, .dataBothBad)] := by decide

/-- Rows T13, T23, T26, T31: the code loaded. -/
theorem test_asm_code :
    loadedCode ["LOD M05", "ADD M03", "HALT"] = [⟨0x42, 5⟩, ⟨0x0A, 3⟩, ⟨0x28, 0⟩] ∧
      loadedCode ["ADD J05"] = [⟨0x0F, 5⟩] ∧ loadedCode ["JUMP -7"] = [⟨0x30, -7⟩] ∧
      loadedCode ["LOD ff"] = [⟨0x41, 255⟩] := by decide

/-- Rows T24, T25: the data loaded. -/
theorem test_asm_data :
    loadedData ["HALT", "DATA", "200 7"] = [] ∧ loadedData ["HALT", "DATA", "1FF 7", "1FF -1"] = [(511, -1)] := by decide

/-- The lines of a text (log 9). -/
theorem test_source_lines : sourceLines "NOP\nHALT".toList = source ["NOP", "HALT"] := by decide

/-- Characters of one, two, three and four bytes (the Unicode standard, table 3-6; log 9). -/
theorem test_utf8 :
    utf8Decode [0x4E, 0xC3, 0xA9, 0xE2, 0x82, 0xAC, 0xF0, 0x9F, 0x98, 0x80] =
      some ['N', Char.ofNat 0xE9, Char.ofNat 0x20AC, Char.ofNat 0x1F600] := by decide

/-- A byte that starts nothing, a lone continuation, a character cut off, an overlong one, a surrogate, a value too large. -/
theorem test_utf8_malformed :
    [[0xFF], [0x80], [0xC3], [0xC3, 0x28], [0xC0, 0x80], [0xED, 0xA0, 0x80], [0xF4, 0x90, 0x80, 0x80]].map utf8Decode =
      List.replicate 7 none := by decide

/-- A character of two bytes is one character of its line; bytes that are not UTF-8 load nothing (log 9). -/
theorem test_assemble_bytes :
    serve Config.opMap (.assemble [0x4E, 0x4F, 0x50, 0x0A, 0xC3, 0xA9]) State.reset =
      (State.reset, .assembled (.text (some ⟨2, .invalidMnemonic⟩))) ∧
      serve Config.opMap (.assemble [0x4E, 0x4F, 0x50, 0x0A, 0xC3]) State.reset =
        (State.reset, .assembled .notText) := by decide

/-! ## Other widths (00_scope.md R6, R8; 42_arithmetic.md R180) -/

/-- A machine of width `w` whose next step fetches `(opcode, arg)`. -/
def cpuAt (w : Nat) (acc : Word w) (data : Memory w) (opcode : BitVec 8) (arg : Word w) : State w :=
  { State.resetAt w with acc := acc, data := data, code := [⟨opcode, arg⟩] }

/-- `MAX + 1` is `MIN` at widths 10 and 16, and no wrap happens at 64. -/
theorem test_width_add :
    (stepReportWith Config.opMap (cpuAt 10 511 [] 0x0A 1)).state.acc.toInt = -512 ∧
      (stepReportWith Config.opMap (cpuAt 16 32767 [] 0x0A 1)).state.acc.toInt = -32768 ∧
      (stepReportWith Config.opMap (cpuAt 64 2147483647 [] 0x0A 1)).state.acc.toInt = 2147483648 := by decide

/-- The least width holds every data index, and a hex number must fit the width (30_encoding.md R111). -/
theorem test_width_ten :
    (stepReportWith Config.opMap (cpuAt 10 7 [] 0x48 511)).state.data = [(511, 7)] ∧
      hexNumber? "1FF".toList = some (511 : Word 10) ∧ hexNumber? "-200".toList = some (-512 : Word 10) ∧
      (hexNumber? "200".toList : Option (Word 10)) = none ∧ hexNumber? "200".toList = some (512 : Word 11) := by decide

/-! ## Witnesses: concrete states and operands that meet the hypotheses of the statements, clause by clause, at the ends of
the ranges (indices 0, 511, 512, -1; an empty and a full code store) -/

/-- A machine with data, an accumulator and one instruction. -/
def small (acc : Word) (data : Memory) : State := cpu acc 0 data 0 0

/-- The pointers of the witnesses: slot 0 points at 511, slot 511 at 0, slot 1 at 512 and slot 2 at -1, which name none. -/
def pointers : Memory := [(0, 511), (1, 512), (2, -1)]

/-- The first and the last slot have an index; the indices beside them name no slot. -/
theorem witness_indices :
    NamesSlot (0 : Word) 0 ∧ NamesSlot (511 : Word) 511 ∧ NamesNoSlot (512 : Word) ∧ NamesNoSlot (-1 : Word) ∧ NamesNoSlot MIN ∧ NamesNoSlot MAX :=
  ⟨rfl, rfl, .inr (by decide), .inl (by decide), .inl (by decide), .inr (by decide)⟩

/-- Operands in the three modes. -/
theorem witness_OperandIs :
    OperandIs .direct 0 (small 5 pointers) 511 ∧ OperandIs .direct 511 (small 5 pointers) 0 ∧
      OperandIs .immediate 512 (small 5 pointers) 512 ∧ OperandIs .indirect 0 (small 5 pointers) 0 ∧
      OperandIs .indirect 511 (small 5 pointers) 511 :=
  ⟨⟨0, rfl, rfl⟩, ⟨511, rfl, rfl⟩, rfl, ⟨0, 511, rfl, rfl, rfl⟩, ⟨511, 0, rfl, rfl, rfl⟩⟩

/-- Operands that fault: the slot, the pointer slot, the slot pointed at, each side of the range. -/
theorem witness_OperandFaults :
    OperandFaults .direct 512 (small 5 pointers) 512 ∧ OperandFaults .direct (-1) (small 5 pointers) (-1) ∧
      OperandFaults .indirect 512 (small 5 pointers) 512 ∧ OperandFaults .indirect (-1) (small 5 pointers) (-1) ∧
      OperandFaults .indirect 1 (small 5 pointers) 512 ∧ OperandFaults .indirect 2 (small 5 pointers) (-1) :=
  ⟨⟨.inr (by decide), rfl⟩, ⟨.inl (by decide), rfl⟩, .inl ⟨.inr (by decide), rfl⟩, .inl ⟨.inl (by decide), rfl⟩,
    .inr ⟨1, rfl, .inr (by decide), rfl⟩, .inr ⟨2, rfl, .inl (by decide), rfl⟩⟩

/-- Targets in the four modes. -/
theorem witness_TargetIs :
    TargetIs .direct (-1) (small 0 pointers) (-1) ∧ TargetIs .immediate 256 (small 0 pointers) 256 ∧
      TargetIs .indirect 0 (small 0 pointers) 511 ∧ TargetIs .special 511 (small 0 pointers) 0 :=
  ⟨rfl, rfl, ⟨0, rfl, rfl⟩, ⟨511, rfl, rfl⟩⟩

/-- Store indices in the two modes, in range and out of range. -/
theorem witness_StoreIndexIs :
    StoreIndexIs .direct 511 (small 5 pointers) 511 ∧ StoreIndexIs .direct 512 (small 5 pointers) 512 ∧
      StoreIndexIs .indirect 0 (small 5 pointers) 511 ∧ StoreIndexIs .indirect 1 (small 5 pointers) 512 ∧
      storeAddr .direct 511 (small 5 pointers) = .ok 511 ∧ storeAddr .indirect 1 (small 5 pointers) = .ok 512 :=
  ⟨rfl, rfl, ⟨0, rfl, rfl⟩, ⟨1, rfl, rfl⟩, rfl, rfl⟩

/-! ### The encoding and the decoder -/

theorem witness_OpcodeFieldsRoundTrip : popcount 0x6F % 2 = 0 := by decide

theorem witness_DecodeOfEncodeIsTheInstruction : Config.opMap.wellFormed = true := test_default_opmap

/-- A second map the spec admits: the order reversed. -/
theorem witness_VerdictCountsForEveryMap :
    (OpMap.wellFormed ⟨fun m => 31 - Config.opMap.code m⟩) = true := by decide

theorem witness_EncodeOfDecodeIsTheEntry : decodeEntry Config.opMap (⟨0x09, 511⟩ : CodeEntry) = .ok (.addDirect 511) := by rfl

theorem witness_OddParityRefusedFirst :
    popcount 0x70 % 2 = 1 ∧ Fetches (cpu 0 0 [] 0x70 0) ⟨0x70, 0⟩ ∧ popcount 0x71 % 2 = 0 :=
  ⟨by decide, ⟨0, rfl, rfl⟩, by decide⟩

/-- Each of the four verdicts is given. -/
theorem witness_DecoderVerdictsExactly :
    decodeOpcode Config.opMap 0x6F = .error (.illegalInstruction 3) ∧
      decodeOpcode Config.opMap 0x69 = .ok (.cmpz, .direct) ∧
      decodeOpcode Config.opMap 0xFF = .error (.unassignedOpcode 31) ∧
      decodeOpcode Config.opMap 0xFE = .error (.parity 0xFE) ∧ Config.opMap.wellFormed = true := by decide

theorem witness_DecoderPortsAgree :
    (decoderPorts Config.opMap 0x42).verdict = .ok (.lod, .immediate) ∧
      (decoderPorts Config.opMap 0x42).flagsLegal = true := by decide

/-! ### The step -/

theorem witness_StepRunsTheDecodedInstruction :
    Fetches (cpuAt 10 0 [] 0x09 7) ⟨0x09, 7⟩ ∧ Fetches (cpu 0 2 [] 0x09 7) ⟨0x09, 7⟩ ∧ decodeEntry Config.opMap (⟨0x09, 7⟩ : CodeEntry) = .ok (.addDirect 7) ∧
      Fetches (cpu 0 0 [] 0x09 7) (encode Config.opMap (.addDirect 7)) :=
  ⟨⟨0, rfl, rfl⟩, ⟨2, rfl, rfl⟩, rfl, ⟨0, rfl, rfl⟩⟩

/-- `pc` below and one past the entries of an empty store, one past those of a store of one. -/
theorem witness_CodeAccessAtFetch :
    ((State.reset).codeSize : Int) ≤ State.reset.pc.toInt ∧ ({ small 0 [] with pc := -1 } : State).pc.toInt < 0 ∧
      (({ small 0 [] with pc := 1 } : State).codeSize : Int) ≤ ({ small 0 [] with pc := 1 } : State).pc.toInt := by decide

/-- The six faults, and none. -/
theorem witness_FaultPriority :
    Config.opMap.wellFormed = true ∧ (stepReport State.reset).result = .fault (.codeAccess 0) ∧
      (stepReport (cpu 0 0 [] 0x08 600)).result = .fault (.parity 0x08) ∧
      (stepReport (cpu 0 0 [] 0x71 600)).result = .fault (.unassignedOpcode 14) ∧
      (stepReport (cpu 0 0 [] 0x0F 600)).result = .fault (.illegalInstruction 3) ∧
      (stepReport (cpu 0 0 [] 0x21 600)).result = .fault (.dataAccess 600) ∧
      (stepReport (cpu 0 0 [] 0x21 511)).result = .fault .divideByZero ∧
      (stepReport (cpu 0 0 [] 0x09 511)).result = .done := by decide

theorem witness_FaultChangesOnlyHalted :
    (stepReportWith Config.opMap (cpu 9 0 [] 0x22 0)).result = .fault .divideByZero := by decide

/-- Both ways to the signal. -/
theorem witness_HaltSignalExactly :
    (stepReportWith Config.opMap (cpu 9 0 [] 0x28 0)).haltSignal = true ∧
      (stepReportWith Config.opMap (cpu 9 0 [] 0x22 0)).haltSignal = true := by decide

theorem witness_HaltedStepRepeats :
    (stepReportWith Config.opMap (cpu 9 0 [] 0x28 7)).haltSignal = true ∧
      (stepReportWith Config.opMap State.reset).haltSignal = true := by decide

theorem witness_OnlyClearLeavesHalted :
    ({ small 0 [] with halted := true } : State).halted = true ∧
      (perform Config.opMap (.host .clear) { small 0 [] with halted := true }).1.halted = false ∧
      (cpu 0 0 [] 0x28 0).halted = false ∧ (perform Config.opMap .step (cpu 0 0 [] 0x28 0)).1.halted = true := by decide

theorem witness_StepChangesAtMostOneSlot : (cpu 42 0 pointers 0x48 511).wf := ⟨by decide, by decide⟩

/-- Every clause: an instruction that advances, a jump, a JMPZ taken and not taken, HALT, a fault. -/
theorem witness_PcUpdateClasses :
    (effectReport (.addDirect 511) (small 1 pointers)).result = .done ∧
      (effectReport (.jumpIndirect 0) (small 1 pointers)).result = .done ∧
      (effectReport (.jmpzSpecial 511) (small 0 pointers)).result = .done ∧ (small 0 pointers).acc = 0 ∧
      (effectReport (.jmpzSpecial 512) (small 1 pointers)).result = .done ∧ (small 1 pointers).acc ≠ 0 ∧
      (effectReport (.halt 0) (small 1 pointers)).result = .done ∧
      (effectReport (.divImmediate 0) (small 1 pointers)).result = .fault .divideByZero := by decide

theorem witness_DivideByZeroExactly :
    (stepReportWith Config.opMap (cpu 5 0 pointers 0x24 0)).result = .fault .divideByZero ∧
      fetchDecode Config.opMap (cpu 5 0 pointers 0x24 0) = .ok (.divIndirect 0) := ⟨by decide, rfl⟩

/-- Two data stores that differ in a slot the instruction does not read. -/
theorem witness_StepReadsOnlyListedSlots :
    (small 5 [(3, 7)]).data.wf = true ∧ Memory.wf (w := Config.width) [(3, 7), (9, 1)] = true ∧
      ∀ j k, Access.read j ∈ accesses (.addDirect 3) (small 5 [(3, 7)]) → NamesSlot j k →
        ({ small 5 [(3, 7)] with data := [(3, 7), (9, 1)] } : State).slot k = (small 5 [(3, 7)]).slot k := by
  refine ⟨by decide, by decide, fun j k hj hk => ?_⟩
  have h : j = 3 := by simpa [accesses, Instr.mnemonic, Mnemonic.path, Instr.mode, Instr.arg] using hj
  subst h
  have : k = 3 := Fin.ext (by have : (3 : Int) = (k.val : Int) := hk; show k.val = 3; omega)
  subst this
  rfl

/-- A value on each path that has one, and a fault. -/
theorem witness_MuxFollowsThePath :
    mux .value .indirect 511 0 (small 5 pointers) = .ok (some 511) ∧
      mux .store .indirect 1 0 (small 5 pointers) = .ok (some 512) ∧
      mux .target .special 511 0 (small 5 pointers) = .ok (some 0) ∧
      mux .value .direct 512 0 (small 5 pointers) = .error (.dataAccess 512) := ⟨rfl, rfl, rfl, rfl⟩

/-! ### The invariant -/

theorem witness_StepKeepsTheInvariant :
    (cpu 42 0 pointers 0x48 3).wf ∧
      step (cpu 42 0 pointers 0x48 3) =
        .next { cpu 42 0 pointers 0x48 3 with pc := 1, data := pointers ++ [(3, 42)], changedDataIndex := some 3 } :=
  ⟨⟨by decide, by decide⟩, rfl⟩

theorem witness_EveryOperationKeepsTheInvariant : (small 5 pointers).wf := ⟨by decide, by decide⟩

/-! ### The instructions -/

theorem witness_HaltResult : fetchDecode Config.opMap (cpu 3 2 [] 0x28 0) = .ok (.halt 0) := by rfl

theorem witness_AddResult : OperandIs .direct 511 (small MAX [(511, 1)]) 1 ∧ OperandFaults .direct 512 (small MAX []) 512 :=
  ⟨⟨511, rfl, rfl⟩, .inr (by decide), rfl⟩

theorem witness_SubResult : OperandIs .immediate 1 (small MIN []) 1 ∧ OperandFaults .indirect (-1) (small MIN []) (-1) :=
  ⟨rfl, .inl ⟨.inl (by decide), rfl⟩⟩

theorem witness_MulResult :
    OperandIs .indirect 0 (small 3 [(0, 511), (511, -1)]) (-1) ∧ OperandFaults .indirect 0 (small 3 [(0, 512)]) 512 :=
  ⟨⟨0, 511, rfl, rfl, rfl⟩, .inr ⟨0, rfl, .inr (by decide), rfl⟩⟩

/-- A divisor other than 0, a divisor 0, no divisor. -/
theorem witness_DivResult :
    (OperandIs .direct 0 (small MIN [(0, -1)]) (-1) ∧ (-1 : Word) ≠ 0) ∧ OperandIs .immediate 0 (small 9 []) 0 ∧
      OperandFaults .direct 512 (small 9 []) 512 :=
  ⟨⟨⟨0, rfl, rfl⟩, by decide⟩, rfl, .inr (by decide), rfl⟩

theorem witness_JumpResult : TargetIs .indirect 0 (small 1 pointers) 511 ∧ NamesNoSlot (512 : Word) :=
  ⟨⟨0, rfl, rfl⟩, .inr (by decide)⟩

/-- Taken, not taken, and taken with a slot out of range. -/
theorem witness_JmpzResult :
    (small 0 pointers).acc = 0 ∧ TargetIs .special 511 (small 0 pointers) 0 ∧ (small (-1) pointers).acc ≠ 0 ∧
      NamesNoSlot (-1 : Word) :=
  ⟨rfl, ⟨511, rfl, rfl⟩, by decide, .inl (by decide)⟩

theorem witness_LodResult :
    OperandIs .indirect 511 (small 5 pointers) 511 ∧ OperandFaults .indirect 2 (small 5 pointers) (-1) :=
  ⟨⟨511, 0, rfl, rfl, rfl⟩, .inr ⟨2, rfl, .inl (by decide), rfl⟩⟩

/-- A store in range, a store out of range, a pointer slot out of range. -/
theorem witness_StoResult :
    (small 42 pointers).data.wf = true ∧ (StoreIndexIs .indirect 0 (small 42 pointers) 511 ∧ NamesSlot (511 : Word) 511) ∧
      (StoreIndexIs .direct 512 (small 42 pointers) 512 ∧ NamesNoSlot (512 : Word)) ∧ NamesNoSlot (-1 : Word) :=
  ⟨by decide, ⟨⟨0, rfl, rfl⟩, rfl⟩, ⟨rfl, .inr (by decide)⟩, .inl (by decide)⟩

theorem witness_NotResult : (small 0 []).acc.toInt = 0 ∧ (small MIN []).acc.toInt ≠ 0 := by decide

/-- Both inputs non-zero, each of them zero, no operand. -/
theorem witness_AndResult :
    (OperandIs .direct 511 (small 6 [(511, 9)]) 9 ∧ (small 6 []).acc.toInt ≠ 0 ∧ (9 : Word).toInt ≠ 0) ∧
      (OperandIs .immediate 0 (small 6 []) 0 ∧ (0 : Word).toInt = 0) ∧ (small 0 []).acc.toInt = 0 ∧
      OperandFaults .direct 512 (small 0 []) 512 :=
  ⟨⟨⟨511, rfl, rfl⟩, by decide, by decide⟩, ⟨rfl, rfl⟩, rfl, .inr (by decide), rfl⟩

theorem witness_CompareResult : NamesSlot (0 : Word) 0 ∧ NamesSlot (511 : Word) 511 ∧ NamesNoSlot (512 : Word) :=
  ⟨rfl, rfl, .inr (by decide)⟩

/-- The clauses at width 10: an operand, its fault, divisors, a target taken and not taken, store indices and pointers in and
out of range. -/
theorem witness_ResultsAtEveryWidth :
    (cpuAt 10 (-512) [(0, 511), (1, -1)] 0 0).data.wf = true ∧
      OperandIs .indirect 0 (cpuAt 10 (-512) [(0, 511), (1, -1)] 0 0) 0 ∧
      OperandIs .direct 1 (cpuAt 10 (-512) [(0, 511), (1, -1)] 0 0) (-1) ∧
      OperandFaults .indirect 1 (cpuAt 10 (-512) [(0, 511), (1, -1)] 0 0) (-1) ∧
      TargetIs .special 0 (cpuAt 10 0 [(0, 511), (1, -1)] 0 0) 511 ∧
      (cpuAt 10 0 [] 0 0).acc = 0 ∧ (cpuAt 10 (-512) [] 0 0).acc ≠ 0 ∧
      (StoreIndexIs .indirect 0 (cpuAt 10 (-512) [(0, 511), (1, -1)] 0 0) 511 ∧ NamesSlot (511 : Word 10) 511) ∧
      (StoreIndexIs .indirect 1 (cpuAt 10 (-512) [(0, 511), (1, -1)] 0 0) (-1) ∧ NamesNoSlot (-1 : Word 10)) :=
  ⟨by decide, ⟨0, 511, rfl, rfl, rfl⟩, ⟨1, rfl, rfl⟩, .inr ⟨1, rfl, .inl (by decide), rfl⟩, ⟨0, rfl, rfl⟩, rfl, by decide,
    ⟨⟨0, rfl, rfl⟩, rfl⟩, ⟨1, rfl, rfl⟩, .inl (by decide)⟩

theorem witness_AccumulatorFormsFrame :
    (effectReport (.divIndirect 511) (small 42 pointers)).result = .done ∧
      exec (.divIndirect 511) (small 42 pointers) = .next { small 42 pointers with acc := 0, pc := 1 } :=
  ⟨by decide, rfl⟩

theorem witness_ControlFormsFrame :
    (effectReport (.jmpzSpecial 0) (small 0 pointers)).result = .done ∧
      exec (.jmpzSpecial 0) (small 0 pointers) = .next { small 0 pointers with pc := 511 } := ⟨by decide, rfl⟩

theorem witness_StoreFormsFrame :
    storeAddr .indirect 1 (small 42 pointers) = .ok 512 ∧
      exec (.stoIndirect 1) (small 42 pointers) = .next { small 42 pointers with pc := 1 } ∧ NamesNoSlot (512 : Word) ∧
      ¬ NamesSlot (512 : Word) 511 := by
  refine ⟨rfl, rfl, .inr (by decide), ?_⟩
  unfold NamesSlot
  decide

/-! ### Integer laws and the stores -/

/-- The least width, the default and the widest number of each. -/
theorem witness_WrapIsCongruentAndInRange :
    Config.widthOk 10 = true ∧ (wrap 512 : BitVec 10).toInt = -512 ∧ (wrap 2147483648 : Word) = MIN := by decide

theorem witness_DivisionTruncates :
    Config.widthOk 10 = true ∧ (MIN.toInt = -(2 : Int) ^ 31 ∧ (-1 : Word).toInt = -1) ∧
      (-7 : Word).toInt ≠ -(2 : Int) ^ 31 ∧ (2 : Word).toInt ≠ 0 := by decide

theorem witness_DataReadAfterWrite :
    (small 5 pointers).data.wf = true ∧ NamesSlot (511 : Word) 511 ∧ (0 : Word) ≠ 511 ∧ NamesNoSlot (512 : Word) :=
  ⟨by decide, rfl, by decide, .inr (by decide)⟩

theorem witness_CanonicalStoresAreEqual :
    Memory.wf pointers = true ∧ ∀ k : Nat, k < Config.dataSlots → Memory.get pointers k = Memory.get pointers k :=
  ⟨by decide, fun _ _ => rfl⟩

/-- A store with room and the index of the append; a full store; the last entry and the index after it. -/
theorem witness_CodeStoreLaws :
    (State.reset.codeSize < Config.codeCap ∧ (0 : Word).toInt = (State.reset.codeSize : Int)) ∧
      Config.codeCap ≤ (cpu 0 255 [] 0 0).codeSize ∧
      ((small 0 []).codeSize : Int) ≤ (1 : Word).toInt ∧ (-1 : Word).toInt < 0 ∧
      (0 ≤ (0 : Word).toInt ∧ (0 : Word).toInt < (small 0 []).codeSize) := by
  refine ⟨by decide, ?_, by decide, by decide, by decide⟩
  simp only [cpu, State.codeSize, List.length_append, List.length_replicate]
  decide

/-- An append, a clearing, a request that does neither. -/
theorem witness_CodeSizeChanges :
    State.reset.codeSize < (perform Config.opMap (.host (.addCode ⟨0, 0⟩)) State.reset).1.codeSize ∧
      (perform Config.opMap (.host .clear) (small 0 [])).1.codeSize < (small 0 []).codeSize ∧
      (Operation.step : Operation) ≠ .host .clear := by decide

theorem witness_SlotHoldsLatestWrite : (cpu 42 0 pointers 0x48 3).wf := ⟨by decide, by decide⟩

/-! ### The host and the assembler -/

theorem witness_HostPortsChangeOneItem :
    (serve Config.opMap (.getData (-1)) (small 5 [])).2 = .refused (.dataAccess (-1)) ∧
      (serve Config.opMap (.setCode 1 ⟨0, 0⟩) (small 5 [])).2 = .refused (.codeAccess 1) ∧
      (Request.readAcc : Request) ≠ .clear ∧ NamesSlot (511 : Word) 511 ∧ NamesNoSlot (512 : Word) ∧
      ((0 : Word).toInt = 0 ∧ (small 5 []).code[0]? = some ⟨0, 0⟩ ∧ (0 : Word).toInt < (small 5 []).codeSize) ∧
      codeWrite (small 5 []) 0 ⟨0x28, 1⟩ = .ok { small 5 [] with code := [⟨0x28, 1⟩] } ∧
      codeWrite (small 5 []) 1 ⟨0x28, 1⟩ = .error (.codeAccess 1) ∧ (small 5 []).codeSize ≤ (1 : Word).toInt := by
  refine ⟨by decide, by decide, by decide, rfl, .inr (by decide), by decide, rfl, rfl, by decide⟩

/-- The whole of the store, an empty range, one index too many on each side. -/
theorem witness_DataRangePort :
    (0 ≤ (0 : Word).toInt ∧ (512 : Word).toInt ≤ (Config.dataSlots : Int)) ∧
      ((511 : Word).toInt < (513 : Word).toInt ∧ (Config.dataSlots : Int) < (513 : Word).toInt) ∧
      ((-1 : Word).toInt < (1 : Word).toInt ∧ (-1 : Word).toInt < 0) := by decide

theorem witness_FirstOffendingLineWins :
    validate (w := Config.width) (source ["NOP", "FOO 0A"]) = .error ⟨2, .invalidMnemonic⟩ ∧
      utf8Decode (bytes ["NOP", "FOO 0A"]) = some "NOP\nFOO 0A".toList ∧
      validate (w := Config.width) (sourceLines "NOP\nFOO 0A".toList) = .error ⟨2, .invalidMnemonic⟩ := by decide

/-- Bytes that are the form of no text. -/
theorem witness_SourceIsUtf8Text : ∀ cs, [0xFF] ≠ utf8Encode cs := by
  rintro (_ | ⟨c, cs⟩) h
  · cases h
  · simp only [utf8Encode, List.flatMap_cons, String.utf8EncodeChar] at h
    split_ifs at h with hc
    · have hb : 255 = c.val.toNat % 256 := congrArg BitVec.toNat (List.cons.inj h).1
      omega
    all_goals simp at h

/-- Runs of two, one and no blank lines after a legal text that ends in a line that is not blank. -/
theorem witness_BlankRunRule :
    validate (source ["NOP", "HALT"]) = .ok [.code .nop .direct (0 : Word), .code .halt .direct 0] ∧
      (∀ l ∈ source ["", " "], isBlank l = true) ∧ (∀ last ∈ (source ["NOP", "HALT"]).getLast?, isBlank last = false) ∧
      2 ≤ (source ["", " "]).length ∧ isBlank "FOO 0A".toList = false ∧ (source [""]).length ≤ 1 ∧
      (∀ l ∈ (source ["HALT"]).head?, isBlank l = false) := by
  refine ⟨rfl, ?_, ?_, ?_, ?_, ?_, ?_⟩ <;> decide

/-- A prefix on each kind of mnemonic; a machine that fetches an illegal form; a text that holds one. -/
theorem witness_SpecialPrefixAnomaly :
    hexNumber? "05".toList = some (5 : Word) ∧ Mnemonic.sto ∈ [Mnemonic.sto, .cmpl, .cmpz] ∧
      Mnemonic.nop ∈ [Mnemonic.nop, .halt, .not] ∧ Mnemonic.add ≠ .jump ∧ Mnemonic.add ≠ .jmpz ∧
      Fetches (cpu 0 0 [] 0x0F 5) (encodeForm Config.opMap .add .special 5) ∧
      validate (source ["ADD J05"]) = .ok [.code .add .special (5 : Word)] ∧ Legal .add .special = false :=
  ⟨by decide, by decide, by decide, by decide, by decide, ⟨0, rfl, rfl⟩, rfl, rfl⟩

theorem witness_LegalFormsCanBeWritten :
    Legal .jump .special = true ∧ hexNumber? "-1f".toList = some (-31 : Word) ∧ Mnemonic.jump ∉ [.nop, .halt, .not] ∧
      Legal .not .direct = true := by decide

theorem witness_LoaderAppendsInOrder :
    State.reset.wf ∧ utf8Decode (bytes ["NOP", "DATA", "1FF 7"]) = some "NOP\nDATA\n1FF 7".toList ∧
      validate (sourceLines "NOP\nDATA\n1FF 7".toList) = .ok [.code .nop .direct (0 : Word), .data 511 7] :=
  ⟨⟨by decide, by decide⟩, by decide, rfl⟩

/-- A state that holds an assembled illegal form, and an operation that keeps it; its step faults, otherwise than with Parity
or Unassigned-Opcode. -/
theorem witness_AssembledCodeNeverFailsParity :
    Config.opMap.wellFormed = true ∧ (cpu 0 0 [] 0x0F 5).codeAssigned Config.opMap ∧
      (Operation.host (.assemble (bytes ["HALT"])) : Operation).keepsAssembled = true ∧
      (stepReportWith Config.opMap (cpu 0 0 [] 0x0F 5)).result = .fault (.illegalInstruction 3) := by
  refine ⟨by decide, fun e he => ?_, by decide, by decide⟩
  have : e = ⟨0x0F, 5⟩ := by simpa [cpu] using he
  subst this
  rfl

/-- A run that ends normally with its step 1, and one that ends in a fault with its step 0. -/
theorem witness_RunEndIsUnique :
    RunEndsAt Config.opMap { cpu 3 1 [] 0x28 0 with pc := 0 } 1 ∧ RunEndsAt Config.opMap State.reset 0 := by
  refine ⟨⟨rfl, fun k hk => ?_⟩, rfl, fun k hk => absurd hk (Nat.not_lt_zero k)⟩
  have : k = 0 := by omega
  subst this
  rfl

end Sys2Proof.Tests
end

/-! ## The opcode's fields and its parity -/

namespace Sys2Proof

variable {w : Nat}

/-- The base field of any opcode, as a number (30_encoding.md R94). -/
theorem baseOpcode_toNat (opcode : BitVec 8) : (baseOpcode opcode).toNat = opcode.toNat / 8 := by
  have : opcode.toNat < 256 := opcode.isLt
  simp only [baseOpcode, BitVec.extractLsb'_toNat, Nat.shiftRight_eq_div_pow]
  omega

/-- The masked flags of any opcode (30_encoding.md R94). -/
theorem flags_modeBits : ∀ opcode : BitVec 8,
    (AddrMode.ofBits (modeBits opcode)).flags = (opcode &&& 6).toNat := by decide

/-- The parity check passes exactly an even number of ones. -/
theorem parityOk_iff {opcode : BitVec 8} : parityOk opcode = true ↔ popcount opcode % 2 = 0 := beq_iff_eq

/-- The parity check refuses exactly an odd number of ones. -/
theorem parityOk_eq_false_iff {opcode : BitVec 8} : parityOk opcode = false ↔ popcount opcode % 2 = 1 := by
  rw [← Bool.not_eq_true, parityOk_iff]
  omega

/-- Parity is the first check: nothing else of the opcode, and nothing of the map, is looked at (30_encoding.md R98). -/
theorem decodeOpcode_of_parityOk_false {om : OpMap} {opcode : BitVec 8} (h : parityOk opcode = false) :
    decodeOpcode om opcode = .error (.parity opcode) := by
  unfold decodeOpcode
  rw [if_neg (by simp [h])]

/-- A refusal with Parity means that the parity check failed. -/
theorem parityOk_false_of_decodeOpcode {om : OpMap} {opcode p : BitVec 8}
    (h : decodeOpcode om opcode = .error (.parity p)) : parityOk opcode = false := by
  unfold decodeOpcode at h
  split at h
  · split at h
    · cases h
    · split at h <;> cases h
  · exact eq_false_of_ne_true ‹_›

/-- The verdict on the opcode of a form, legal or not (30_encoding.md R97, R98). -/
theorem decodeOpcode_encodeOpcode {om : OpMap} (h : om.wellFormed = true) (m : Mnemonic) (mode : AddrMode) :
    decodeOpcode om (encodeOpcode (om.code m) mode) =
      if Legal m mode then .ok (m, mode) else .error (.illegalInstruction mode.bits) := by
  simp only [decodeOpcode, parityOk_encodeOpcode, if_true, baseOpcode_encodeOpcode, mnemonicOf_code h,
    modeBits_encodeOpcode, ofBits_bits]

/-- An entry is refused as its opcode is. -/
theorem decodeEntry_of_error {om : OpMap} {e : CodeEntry w} {f : DecodeFault}
    (h : decodeOpcode om e.opcode = .error f) : decodeEntry om e = .error f := by
  unfold decodeEntry
  rw [h]

end Sys2Proof

/-! ## The validating pass, and what it accepts of a line -/

namespace Sys2Proof.Machine

variable {w : Nat}

/-- A step that fetches an entry whose opcode the decoder refuses reports that refusal. -/
theorem stepReportWith_result_of_refused {om : OpMap} {s : State w} {e : CodeEntry w} {f : DecodeFault}
    (hf : Fetches s e) (hd : decodeOpcode om e.opcode = .error f) :
    (stepReportWith om s).result = .fault (faultOfDecode f) := by
  rw [stepReportWith_of_error (fetchDecode_refused hf (decodeEntry_of_error hd))]
  rfl

/-- A blank line is counted. -/
theorem validateFrom_blank {l : Line} (hl : isBlank l = true) (n b : Nat) (mode : SourceMode) (rest : List Line) :
    validateFrom (w := w) n b mode (l :: rest) = validateFrom (n + 1) (b + 1) mode rest := by
  rw [validateFrom, if_pos hl]

/-- A non-blank line that closes a run of two or more blank lines: the diagnostic is at the run's first (30_encoding.md
R121). -/
theorem validateFrom_closes_run {l : Line} (hl : isBlank l = false) {b : Nat} (hb : 2 ≤ b) (n : Nat) (mode : SourceMode)
    (rest : List Line) :
    validateFrom (w := w) n b mode (l :: rest) = .error ⟨n - b, .illegalBlankLine⟩ := by
  rw [validateFrom, if_neg (by simp [hl]), if_pos hb]

/-- When a source that starts with a non-blank line is accepted: no closed run of blank lines is before it, the line is legal,
and the rest is accepted in the section that the line leaves. -/
theorem validateFrom_line_ok_iff {l : Line} (hl : isBlank l = false) {n b : Nat} {mode : SourceMode} {rest : List Line}
    {items : List (Item w)} :
    validateFrom n b mode (l :: rest) = .ok items ↔ b < 2 ∧
      ((checkLine (w := w) mode l = .ok none ∧ validateFrom (n + 1) 0 .data rest = .ok items) ∨
        ∃ item items', checkLine mode l = .ok (some item) ∧ validateFrom (n + 1) 0 mode rest = .ok items' ∧
          items = item :: items') := by
  by_cases hb : 2 ≤ b
  · rw [validateFrom_closes_run hl hb]
    simp [Nat.not_lt.2 hb]
  · rw [validateFrom, if_neg (by simp [hl]), if_neg hb]
    rcases hc : checkLine (w := w) mode l with m | _ | item
    · simp
    · simp [Nat.not_le.1 hb]
    · rcases validateFrom (w := w) (n + 1) 0 mode rest with d | items'
      · simp
      · simp [Nat.not_le.1 hb, eq_comm]

/-- Whether a source is accepted, and what it loads, does not depend on the number its lines count from. -/
theorem validateFrom_ok_renumber : ∀ {text : List Line} {n b : Nat} {mode : SourceMode} {items : List (Item w)} (n' : Nat),
    validateFrom n b mode text = .ok items → validateFrom n' b mode text = .ok items
  | [], _, _, _, _, _, h => h
  | l :: rest, n, b, mode, items, n', h => by
    cases hl : isBlank l with
    | true =>
      rw [validateFrom_blank hl] at h ⊢
      exact validateFrom_ok_renumber _ h
    | false =>
      rw [validateFrom_line_ok_iff hl] at h ⊢
      obtain ⟨hb, ⟨hc, hr⟩ | ⟨item, items', hc, hr, rfl⟩⟩ := h
      · exact ⟨hb, .inl ⟨hc, validateFrom_ok_renumber _ hr⟩⟩
      · exact ⟨hb, .inr ⟨item, items', hc, validateFrom_ok_renumber _ hr, rfl⟩⟩

/-- Before a source that does not start with a blank line, fewer than two blank lines change nothing that it loads. -/
theorem validateFrom_ok_iff_of_short_runs {rest : List Line} (hr : ∀ l ∈ rest.head?, isBlank l = false) (n n' : Nat)
    {b b' : Nat} (hb : b < 2) (hb' : b' < 2) (mode : SourceMode) (items : List (Item w)) :
    validateFrom n b mode rest = .ok items ↔ validateFrom n' b' mode rest = .ok items := by
  have renumber : validateFrom n b mode rest = .ok items ↔ validateFrom n' b mode rest = .ok items :=
    ⟨validateFrom_ok_renumber n', validateFrom_ok_renumber n⟩
  rw [renumber]
  cases rest with
  | nil => rfl
  | cons l rest =>
    have hl : isBlank l = false := hr l rfl
    simp only [validateFrom_line_ok_iff hl, hb, hb']

/-- When a result with a function applied to its value is a value. -/
theorem map_eq_ok_iff {ε α β : Type} {f : α → β} {r : Except ε α} {y : β} :
    r.map f = .ok y ↔ ∃ x, r = .ok x ∧ f x = y := by
  cases r <;> simp [Except.map]

/-- Every item that an accepted source loads is that of one of its lines. -/
theorem checkLine_of_mem_validateFrom {item : Item w} : ∀ {text : List Line} {n b : Nat} {mode : SourceMode}
    {items : List (Item w)}, validateFrom n b mode text = .ok items → item ∈ items →
      ∃ mode', ∃ l ∈ text, checkLine mode' l = .ok (some item)
  | [], _, _, _, _, h, hi => by cases h; cases hi
  | l :: rest, n, b, mode, items, h, hi => by
    have later : ∀ {n b mode items}, validateFrom n b mode rest = .ok items → item ∈ items →
        ∃ mode', ∃ x ∈ l :: rest, checkLine mode' x = .ok (some item) := by
      intro n b mode items hr hi
      obtain ⟨mode', x, hx, hc⟩ := checkLine_of_mem_validateFrom hr hi
      exact ⟨mode', x, List.mem_cons_of_mem l hx, hc⟩
    cases hl : isBlank l with
    | true => exact later (validateFrom_blank hl n b mode rest ▸ h) hi
    | false =>
      obtain ⟨-, ⟨-, hr⟩ | ⟨item', items', hc, hr, rfl⟩⟩ := (validateFrom_line_ok_iff hl).1 h
      · exact later hr hi
      · rcases List.mem_cons.1 hi with rfl | hi
        · exact ⟨mode, l, List.mem_cons_self, hc⟩
        · exact later hr hi

/-- A mnemonic as written is found as itself. -/
theorem find_mnemonicText (m : Mnemonic) : (Mnemonic.all.find? fun n => mnemonicText n == mnemonicText m) = some m := by
  cases m <;> decide

/-- A line that starts with a mnemonic is that mnemonic's operands (30_encoding.md R123). -/
theorem codeLine_mnemonicText (m : Mnemonic) (args : List (List Char)) :
    codeLine (w := w) (mnemonicText m :: args) = operands m args := by
  simp only [codeLine, find_mnemonicText]

/-- The `J` mark before a hex number is checked against the immediate-eligible set (30_encoding.md R126). -/
theorem argument_special {m : Mnemonic} {ds : List Char} {a : Word w} (h : hexNumber? ds = some a) :
    argument m ('J' :: ds) = if immEligible m then .ok (.code m .special a) else .error .illegalPrefix := by
  simp only [argument, splitPrefix, prefixAccepted, h]

/-- What the assembler makes of a mnemonic and one argument with the `J` mark (30_encoding.md R124, R126). -/
theorem codeLine_special {m : Mnemonic} {ds : List Char} {a : Word w} (h : hexNumber? ds = some a) :
    codeLine [mnemonicText m, 'J' :: ds] =
      if zeroOperand m then .error .tooManyArgs
      else if immEligible m then .ok (.code m .special a) else .error .illegalPrefix := by
  rw [codeLine_mnemonicText, operands, argument_special h]

/-- The form of an instruction that an argument gives has an addressing mode that the assembler accepts on its mnemonic. -/
theorem prefixAccepted_of_argument {m m' : Mnemonic} {mode : AddrMode} {a : Word w} {token : List Char}
    (h : argument m' token = .ok (.code m mode a)) : prefixAccepted m mode = true := by
  unfold argument at h
  split at h
  · split at h
    · cases h; assumption
    · cases h
  · cases h

/-- The form of an instruction that a line's operands give has an addressing mode that the assembler accepts on its mnemonic. -/
theorem prefixAccepted_of_operands {m m' : Mnemonic} {mode : AddrMode} {a : Word w} {args : List (List Char)}
    (h : operands m' args = .ok (.code m mode a)) : prefixAccepted m mode = true := by
  unfold operands at h
  split at h
  · split at h
    · cases h; rfl
    · cases h
  · split at h
    · cases h
    · exact prefixAccepted_of_argument h
  · cases h

/-- The form of an instruction that a CODE line gives has an addressing mode that the assembler accepts on its mnemonic. -/
theorem prefixAccepted_of_codeLine {m : Mnemonic} {mode : AddrMode} {a : Word w} {ts : List (List Char)}
    (h : codeLine ts = .ok (.code m mode a)) : prefixAccepted m mode = true := by
  unfold codeLine at h
  split at h
  · cases h
  · split at h
    · exact prefixAccepted_of_operands h
    · split at h <;> cases h

/-- A DATA line gives no instruction. -/
theorem dataLine_ne_code (ts : List (List Char)) (m : Mnemonic) (mode : AddrMode) (a : Word w) :
    dataLine ts ≠ .ok (.code m mode a) := by
  unfold dataLine
  split
  · nofun
  · nofun
  · split <;> nofun
  · nofun

/-- The form of an instruction that a line gives, in either section, has an addressing mode that the assembler accepts on its
mnemonic. -/
theorem prefixAccepted_of_checkLine {m : Mnemonic} {mode : AddrMode} {a : Word w} {sm : SourceMode} {l : Line}
    (h : checkLine sm l = .ok (some (.code m mode a))) : prefixAccepted m mode = true := by
  unfold checkLine at h
  split at h
  · cases h
  · split at h
    · split at h
      · cases h
      · split at h
        · cases h
        · obtain ⟨_, hc, ⟨⟩⟩ := map_eq_ok_iff.1 h
          exact prefixAccepted_of_codeLine hc
    · split at h
      · cases h
      · obtain ⟨_, hd, ⟨⟩⟩ := map_eq_ok_iff.1 h
        exact absurd hd (dataLine_ne_code _ m mode a)

/-- The zero-operand mnemonics (30_encoding.md R100). -/
theorem zeroOperand_iff {m : Mnemonic} : zeroOperand m = true ↔ m ∈ [.nop, .halt, .not] := by
  cases m <;> decide

/-- The mnemonics that take an argument and are immediate-eligible: those on which `J` is accepted (30_encoding.md R126). -/
theorem special_accepted_iff {m : Mnemonic} : (¬ zeroOperand m = true ∧ immEligible m = true) ↔
    m ∈ [.add, .sub, .mul, .div, .jump, .jmpz, .lod, .and] := by
  cases m <;> decide

/-- The mnemonics that take an argument and are not immediate-eligible: those on which `J` is refused (30_encoding.md
R126). -/
theorem special_refused {m : Mnemonic} (h : m ∈ [.sto, .cmpl, .cmpz]) : ¬ zeroOperand m = true ∧ ¬ immEligible m = true := by
  revert h; cases m <;> decide

/-- The forms the assembler accepts and the decoder refuses (30_encoding.md R126). -/
theorem illegal_prefixAccepted {m : Mnemonic} {mode : AddrMode} (hp : prefixAccepted m mode = true)
    (hl : Legal m mode = false) : mode = .special ∧ m ∈ [.add, .sub, .mul, .div, .lod, .and] := by
  cases mode with
  | direct => revert hl; cases m <;> decide
  | immediate => exact absurd (hp.symm.trans hl) Bool.noConfusion
  | indirect => exact absurd (hp.symm.trans hl) Bool.noConfusion
  | special => revert hp hl; cases m <;> decide

/-- Only JUMP and JMPZ have a special form (30_encoding.md R97). -/
theorem legal_special_iff {m : Mnemonic} : Legal m .special = true ↔ m = .jump ∨ m = .jmpz := by
  cases m <;> decide

end Sys2Proof.Machine

/-! ## The obligations -/

namespace Sys2Proof.Proofs

open Sys2Proof.Machine

/-- Settles O5: parity is the decoder's first check, so the verdict, and with it the fault of the step, is Parity exactly
for an odd number of ones. -/
theorem oddParityRefusedFirst : Obligations.OddParityRefusedFirst := by
  unfold Obligations.OddParityRefusedFirst
  refine ⟨fun w om e s hodd => ?_, fun om opcode heven p hp => ?_, ?_, ?_⟩
  · have hd : decodeOpcode om e.opcode = .error (.parity e.opcode) :=
      decodeOpcode_of_parityOk_false (parityOk_eq_false_iff.2 hodd)
    exact ⟨⟨_, hd⟩, fun hf => ⟨_, stepReportWith_result_of_refused hf hd⟩⟩
  · have hodd := parityOk_eq_false_iff.1 (parityOk_false_of_decodeOpcode hp)
    omega
  · decide +kernel
  · decide +kernel

/-- Settles O53: after the text the pass stands at line `text.length + 1` with no blank line pending; the run is then
counted, and only a line that closes it can refuse it. -/
theorem blankRunRule : Obligations.BlankRunRule := by
  unfold Obligations.BlankRunRule
  intro w text run items hv hrun hlast
  obtain ⟨mode, hmode⟩ := validateFrom_ok_append hv hlast
  have after : ∀ more, validate (text ++ more) = (validateFrom (1 + text.length) 0 mode more).map (items ++ ·) := by
    intro more
    rw [validate, hmode, ite_self]
  have afterRun : ∀ more, validate (text ++ run ++ more) =
      (validateFrom (1 + text.length + run.length) run.length mode more).map (items ++ ·) := by
    intro more
    rw [List.append_assoc, after, validateFrom_blanks more hrun, Nat.zero_add]
  refine ⟨?_, rfl, fun hlen l rest hl => ?_, fun hlen rest all hrest => ?_⟩
  · rw [← List.append_nil (text ++ run), afterRun, validateFrom]
    simp [Except.map]
  · rw [afterRun, validateFrom_closes_run hl hlen]
    simp only [Except.map]
    congr 2
    omega
  · rw [afterRun, after, map_eq_ok_iff, map_eq_ok_iff]
    simp only [validateFrom_ok_iff_of_short_runs hrest _ (1 + text.length) (Nat.lt_succ_of_le hlen) Nat.zero_lt_two]

/-- Settles O54: `J` is checked as if it were `M`, so what gets in beyond the legal forms is the special form of an
immediate-eligible mnemonic other than JUMP and JMPZ. -/
theorem specialPrefixAnomaly : Obligations.SpecialPrefixAnomaly := by
  unfold Obligations.SpecialPrefixAnomaly
  refine ⟨fun w m ds a hds => ?_, fun w om hom m a s hjump hjmpz hf => ?_, fun w text items hv m mode a hmem hl => ?_⟩
  · rw [codeLine_special hds]
    refine ⟨?_, fun hm => ?_, fun hm => ?_⟩
    · rw [← special_accepted_iff]
      split
      · simp [*]
      · split <;> simp [*]
    · obtain ⟨hz, hi⟩ := special_refused hm
      rw [if_neg hz, if_neg hi]
    · rw [if_pos (zeroOperand_iff.2 hm)]
  · have hl : ¬ Legal m .special = true := fun hl => (legal_special_iff.1 hl).elim hjump hjmpz
    have hd : decodeOpcode om (encodeOpcode (om.code m) .special) = .error (.illegalInstruction 3) :=
      (decodeOpcode_encodeOpcode hom m .special).trans (if_neg hl)
    exact stepReportWith_result_of_refused hf hd
  · obtain ⟨sm, l, -, hc⟩ := checkLine_of_mem_validateFrom hv hmem
    exact illegal_prefixAccepted (prefixAccepted_of_checkLine hc) hl

/-- Settles O2: the fields of any opcode are its quotient and its mask; those of an encoded one are the ones encoded. -/
theorem opcodeFieldsRoundTrip : Obligations.OpcodeFieldsRoundTrip := by
  unfold Obligations.OpcodeFieldsRoundTrip
  refine ⟨fun opcode => ⟨baseOpcode_toNat opcode, flags_modeBits opcode⟩, fun base mode => ?_, fun opcode heven => ?_⟩
  · refine ⟨baseOpcode_encodeOpcode base mode, modeBits_encodeOpcode base mode,
      parityOk_iff.1 (parityOk_encodeOpcode base mode), ?_, ?_⟩
    · rw [← baseOpcode_toNat, baseOpcode_encodeOpcode]
    · rw [← flags_modeBits, modeBits_encodeOpcode, ofBits_bits]
  · exact encodeOpcode_fields opcode (parityOk_iff.2 heven)

end Sys2Proof.Proofs

/-! ## An effect through its instruction's mnemonic, mode and argument, and the `pc` it leaves -/

namespace Sys2Proof.Machine

variable {w : Nat}

/-- `Effect(m, flags, a)` as 40_fetch_decode_dispatch.md R153 writes it, one line per mnemonic: what `effect` is on every
form (`effect_eq_effectOf`). NOP, HALT, NOT, CMPL and CMPZ have one mode. -/
def effectOf (m : Mnemonic) (mode : AddrMode) (a : Word w) (s : State w) : Effect w :=
  match m with
  | .nop => effectNop a s
  | .add => effectAdd mode a s
  | .sub => effectSub mode a s
  | .mul => effectMul mode a s
  | .div => effectDiv mode a s
  | .halt => effectHalt a s
  | .jump => effectJump mode a s
  | .jmpz => effectJmpz mode a s
  | .lod => effectLod mode a s
  | .sto => effectSto mode a s
  | .not => effectNot a s
  | .and => effectAnd mode a s
  | .cmpl => effectCmpl a s
  | .cmpz => effectCmpz a s

theorem effect_eq_effectOf (i : Instr w) (s : State w) : effect i s = effectOf i.mnemonic i.mode i.arg s := by
  cases i <;> rfl

/-! LOD, AND, CMPL and CMPZ have the shape of the arithmetic effects: one operand, one value into `acc`. -/

theorem effectLod_eq (mode : AddrMode) (a : Word w) (s : State w) :
    effectLod mode a s = operandEffect (fun _ x => x) mode a s := rfl

theorem effectAnd_eq (mode : AddrMode) (a : Word w) (s : State w) :
    effectAnd mode a s = operandEffect (fun acc x => truthWord (isNonZero acc && isNonZero x)) mode a s := rfl

theorem effectCmpl_eq (a : Word w) (s : State w) :
    effectCmpl a s = operandEffect (fun _ x => truthWord (isNegative x)) .direct a s := rfl

theorem effectCmpz_eq (a : Word w) (s : State w) :
    effectCmpz a s = operandEffect (fun _ x => truthWord (isZero x)) .direct a s := rfl

theorem pc_of_operandEffect {f : Word w → Word w → Word w} {mode : AddrMode} {a : Word w} {s t : State w}
    (h : operandEffect f mode a s = .ok t) : t.pc = nextPc s.pc := by
  rcases operandEffect_cases f mode a s with ⟨x, -, hx⟩ | ⟨e, -, he⟩
  · obtain rfl : writeAcc s (f s.acc x) = t := Except.ok.inj (hx.symm.trans h)
    rfl
  · cases he.symm.trans h

theorem pc_of_effectDiv {mode : AddrMode} {a : Word w} {s t : State w} (h : effectDiv mode a s = .ok t) :
    t.pc = nextPc s.pc := by
  unfold effectDiv at h
  split at h
  · split at h <;> cases h
    rfl
  · cases h

theorem pc_of_effectSto {mode : AddrMode} {a : Word w} {s t : State w} (h : effectSto mode a s = .ok t) :
    t.pc = nextPc s.pc := by
  unfold effectSto at h
  split at h <;> cases h
  simp

/-- Every effect but those of JUMP, JMPZ and HALT ends in the increment (40_fetch_decode_dispatch.md R154). -/
theorem pc_of_effectOf {m : Mnemonic} {mode : AddrMode} {a : Word w} {s t : State w} (h : effectOf m mode a s = .ok t)
    (hjump : m ≠ .jump) (hjmpz : m ≠ .jmpz) (hhalt : m ≠ .halt) : t.pc = nextPc s.pc := by
  cases m with
  | jump => exact absurd rfl hjump
  | jmpz => exact absurd rfl hjmpz
  | halt => exact absurd rfl hhalt
  | nop | not => cases h; rfl
  | add | sub | mul => exact pc_of_operandEffect h
  | div => exact pc_of_effectDiv h
  | lod => exact pc_of_operandEffect ((effectLod_eq mode a s).symm.trans h)
  | and => exact pc_of_operandEffect ((effectAnd_eq mode a s).symm.trans h)
  | cmpl => exact pc_of_operandEffect ((effectCmpl_eq a s).symm.trans h)
  | cmpz => exact pc_of_operandEffect ((effectCmpz_eq a s).symm.trans h)
  | sto => exact pc_of_effectSto h

theorem effectJump_ok {mode : AddrMode} {a : Word w} {s t : State w} (h : effectJump mode a s = .ok t) :
    TargetIs mode a s t.pc ∧ t = { s with pc := t.pc } := by
  unfold effectJump at h
  split at h <;> cases h
  next p hp => exact ⟨jumpTarget_ok_iff.1 hp, rfl⟩

theorem effectJmpz_taken {s : State w} (h : s.acc = 0) (mode : AddrMode) (a : Word w) :
    effectJmpz mode a s = effectJump mode a s := if_pos (beq_iff_eq.2 h)

theorem effectJmpz_untaken {s : State w} (h : s.acc ≠ 0) (mode : AddrMode) (a : Word w) :
    effectJmpz mode a s = .ok (advance s) := if_neg fun hz => h (beq_iff_eq.1 hz)

/-- An execution is done exactly when its effect raised nothing. -/
theorem effectReport_done_iff {i : Instr w} {s : State w} :
    (effectReport i s).result = .done ↔ ∃ t, effect i s = .ok t := by
  unfold effectReport
  cases effect i s <;> simp

end Sys2Proof.Machine

/-! ## The obligations of fetch, decode and dispatch -/

namespace Sys2Proof.Proofs

open Sys2Proof.Machine

/-- Settles O19: a completed execution leaves the state its effect yields, and the effect's mnemonic decides the class; a
fault leaves the fault entry, which keeps `pc`. -/
theorem pcUpdateClasses : Obligations.PcUpdateClasses := by
  unfold Obligations.PcUpdateClasses
  intro w i s t hexec
  have hstate : concludeState s (effect i s) = t := Host.Outcome.next.inj hexec
  refine ⟨fun hdone => ?_, fun f hf => ?_⟩
  · obtain ⟨u, hu⟩ := effectReport_done_iff.1 hdone
    obtain rfl : u = t := by rwa [hu, concludeState_ok] at hstate
    rw [effect_eq_effectOf] at hu
    refine ⟨pc_of_effectOf hu, fun hm => ?_, fun hm hacc => ?_, fun hm hacc => ?_, fun hm => ?_⟩ <;> rw [hm] at hu
    · exact effectJump_ok hu
    · exact effectJump_ok ((effectJmpz_taken hacc _ _).symm.trans hu)
    · obtain rfl : advance s = u := Except.ok.inj ((effectJmpz_untaken hacc _ _).symm.trans hu)
      exact ⟨rfl, rfl⟩
    · obtain rfl : { s with halted := true } = u := Except.ok.inj hu
      rfl
  · obtain rfl : faultEntry s = t := by rwa [effectReport_fault_iff.1 hf] at hstate
    rfl

end Sys2Proof.Proofs

/-! ## What an effect that raises a fault can raise: the mux's fault, or DIV's own -/

namespace Sys2Proof.Machine

variable {w : Nat}

/-- When a result with a function applied to its value is a fault. -/
theorem map_eq_error_iff {ε α β : Type} {f : α → β} {r : Except ε α} {e : ε} : r.map f = .error e ↔ r = .error e := by
  cases r <;> simp [Except.map]

theorem mux_value_eq_error_iff {mode : AddrMode} {a pc : Word w} {s : State w} {f : Fault w} :
    mux .value mode a pc s = .error f ↔ operand mode a s = .error f := map_eq_error_iff

theorem mux_store_eq_error_iff {mode : AddrMode} {a pc : Word w} {s : State w} {f : Fault w} :
    mux .store mode a pc s = .error f ↔ storeAddr mode a s = .error f := map_eq_error_iff

theorem mux_target_eq_error_iff {mode : AddrMode} {a pc : Word w} {s : State w} {f : Fault w} :
    mux .target mode a pc s = .error f ↔ jumpTarget mode a pc s = .error f := map_eq_error_iff

theorem operand_ne_divideByZero (mode : AddrMode) (a : Word w) (s : State w) : operand mode a s ≠ .error .divideByZero := by
  intro h
  by_cases hm : mode = .special
  · subst hm
    cases h
  · obtain ⟨_, ⟨⟩, -⟩ := operand_error hm h

theorem storeAddr_ne_divideByZero (mode : AddrMode) (a : Word w) (s : State w) :
    storeAddr mode a s ≠ .error .divideByZero := by
  intro h
  cases mode with
  | direct | immediate | special => cases h
  | indirect => obtain ⟨⟨⟩, -⟩ := memRead_error h

theorem jumpTarget_ne_divideByZero (mode : AddrMode) (a pc : Word w) (s : State w) :
    jumpTarget mode a pc s ≠ .error .divideByZero := by
  intro h
  obtain ⟨_, ⟨⟩, -⟩ := jumpTarget_error h

/-- The mux never divides. -/
theorem mux_ne_divideByZero (path : Path) (mode : AddrMode) (a pc : Word w) (s : State w) :
    mux path mode a pc s ≠ .error .divideByZero := by
  cases path with
  | none => nofun
  | value => exact mux_value_eq_error_iff.not.2 (operand_ne_divideByZero mode a s)
  | store => exact mux_store_eq_error_iff.not.2 (storeAddr_ne_divideByZero mode a s)
  | target => exact mux_target_eq_error_iff.not.2 (jumpTarget_ne_divideByZero mode a pc s)

theorem operandEffect_error {f : Word w → Word w → Word w} {mode : AddrMode} {a : Word w} {s : State w} {e : Fault w}
    (h : operandEffect f mode a s = .error e) : operand mode a s = .error e := by
  rcases operandEffect_cases f mode a s with ⟨x, -, hx⟩ | ⟨e', he', hx⟩
  · cases hx.symm.trans h
  · obtain rfl : e' = e := Except.error.inj (hx.symm.trans h)
    exact he'

theorem effectDiv_of_zero {mode : AddrMode} {a : Word w} {s : State w} (h : OperandIs mode a s 0) :
    effectDiv mode a s = .error .divideByZero := by
  unfold effectDiv
  rw [operand_ok_iff.2 h]
  exact if_pos rfl

/-- DIV fails on its operand's fault or on an operand of 0 (42_arithmetic.md R186). -/
theorem effectDiv_error {mode : AddrMode} {a : Word w} {s : State w} {f : Fault w} (h : effectDiv mode a s = .error f) :
    operand mode a s = .error f ∨ (OperandIs mode a s 0 ∧ f = .divideByZero) := by
  unfold effectDiv at h
  split at h
  next x hx =>
    split at h <;> cases h
    next hzero => exact .inr ⟨operand_ok_iff.1 (hzero ▸ hx), rfl⟩
  next e he =>
    cases h
    exact .inl he

theorem effectJump_error {mode : AddrMode} {a : Word w} {s : State w} {f : Fault w} (h : effectJump mode a s = .error f) :
    jumpTarget mode a s.pc s = .error f := by
  unfold effectJump at h
  split at h <;> cases h
  assumption

theorem effectJmpz_error {mode : AddrMode} {a : Word w} {s : State w} {f : Fault w} (h : effectJmpz mode a s = .error f) :
    jumpTarget mode a s.pc s = .error f := by
  by_cases hacc : s.acc = 0
  · exact effectJump_error ((effectJmpz_taken hacc mode a).symm.trans h)
  · cases (effectJmpz_untaken hacc mode a).symm.trans h

theorem effectSto_error {mode : AddrMode} {a : Word w} {s : State w} {f : Fault w} (h : effectSto mode a s = .error f) :
    storeAddr mode a s = .error f := by
  unfold effectSto at h
  split at h <;> cases h
  assumption

/-- Every instruction is of a legal form (30_encoding.md R97). -/
theorem wellFormed_instr (i : Instr w) : i.wellFormed = true := by
  rw [Instr.wellFormed, ← ofForm_isSome _ _ i.arg, ofForm_self, Option.isSome_some]

/-- The compare mnemonics have the direct form only (30_encoding.md R97). -/
theorem mode_of_legal_compare {m : Mnemonic} {mode : AddrMode} (hm : m = .cmpl ∨ m = .cmpz) (hl : Legal m mode = true) :
    mode = .direct := by
  revert hl
  rcases hm with rfl | rfl <;> cases mode <;> decide

/-- The effect of a legal form fails where the mux fails on the mnemonic's path, or it is DIV's on an operand of 0. -/
theorem effectOf_error {m : Mnemonic} {mode : AddrMode} {a : Word w} {s : State w} {f : Fault w}
    (hl : Legal m mode = true) (h : effectOf m mode a s = .error f) :
    mux m.path mode a s.pc s = .error f ∨ (m = .div ∧ OperandIs mode a s 0 ∧ f = .divideByZero) := by
  have value : operand mode a s = .error f → mux .value mode a s.pc s = .error f := mux_value_eq_error_iff.2
  cases m with
  | nop | halt | not => cases h
  | add | sub | mul => exact .inl (value (operandEffect_error h))
  | div => exact (effectDiv_error h).imp value fun ⟨hzero, hf⟩ => ⟨rfl, hzero, hf⟩
  | jump => exact .inl (mux_target_eq_error_iff.2 (effectJump_error h))
  | jmpz => exact .inl (mux_target_eq_error_iff.2 (effectJmpz_error h))
  | sto => exact .inl (mux_store_eq_error_iff.2 (effectSto_error h))
  | lod => exact .inl (value (operandEffect_error ((effectLod_eq mode a s).symm.trans h)))
  | and => exact .inl (value (operandEffect_error ((effectAnd_eq mode a s).symm.trans h)))
  | cmpl =>
    obtain rfl := mode_of_legal_compare (.inl rfl) hl
    exact .inl (value (operandEffect_error ((effectCmpl_eq a s).symm.trans h)))
  | cmpz =>
    obtain rfl := mode_of_legal_compare (.inr rfl) hl
    exact .inl (value (operandEffect_error ((effectCmpz_eq a s).symm.trans h)))

/-- An instruction divides by zero exactly when it is a DIV whose operand is 0 (60_exceptions.md R245). -/
theorem effect_divideByZero_iff {i : Instr w} {s : State w} :
    effect i s = .error .divideByZero ↔ i.mnemonic = .div ∧ OperandIs i.mode i.arg s 0 := by
  rw [effect_eq_effectOf]
  constructor
  · intro h
    rcases effectOf_error (wellFormed_instr i) h with hmux | ⟨hdiv, hzero, -⟩
    · exact absurd hmux (mux_ne_divideByZero _ _ _ _ _)
    · exact ⟨hdiv, hzero⟩
  · rintro ⟨hdiv, hzero⟩
    rw [hdiv]
    exact effectDiv_of_zero hzero

/-- Fetch and decode raise faults of their own only: nothing has been divided (60_exceptions.md R247). -/
theorem fetchDecode_ne_divideByZero (om : OpMap) (s : State w) : fetchDecode om s ≠ .error .divideByZero := by
  intro h
  unfold fetchDecode at h
  rcases codeRead_cases s s.pc with ⟨k, e, -, -, he⟩ | ⟨-, hout⟩
  · rw [he] at h
    cases hd : decodeEntry om e with
    | ok i => simp [hd] at h
    | error f => cases f <;> simp [hd, faultOfDecode] at h
  · rw [hout] at h
    cases h

/-- A step that reports a fault does nothing but the fault entry (60_exceptions.md R246). -/
theorem stepReportWith_of_fault {om : OpMap} {s : State w} {f : Fault w} (h : (stepReportWith om s).result = .fault f) :
    stepReportWith om s = faultReport s f := by
  rcases stepReportWith_cases om s with ⟨f', -, hr⟩ | ⟨_, f', -, -, hr⟩ | ⟨_, _, -, -, hr⟩ <;> rw [hr] at h
  · obtain rfl : f' = f := StepResult.fault.inj h
    exact hr
  · obtain rfl : f' = f := StepResult.fault.inj h
    exact hr
  · cases h

end Sys2Proof.Machine

/-! ## The obligations of the exceptions -/

namespace Sys2Proof.Proofs

open Sys2Proof.Machine

/-- Settles O20: fetch, decode and the mux have no Divide-by-Zero to raise, so it is DIV's zero test that raised it; its
report is that of any fault. -/
theorem divideByZeroExactly : Obligations.DivideByZeroExactly := by
  unfold Obligations.DivideByZeroExactly
  refine fun w om s => ⟨?_, stepReportWith_of_fault⟩
  cases hfd : fetchDecode om s with
  | error f =>
    have hne : f ≠ .divideByZero := fun hf => fetchDecode_ne_divideByZero om s (hf ▸ hfd)
    simp [stepReportWith_of_error hfd, faultReport, hne]
  | ok i =>
    rw [stepReportWith_of_ok hfd, effectReport_fault_iff, effect_divideByZero_iff]
    simp

end Sys2Proof.Proofs

/-! ## The decoder: its four verdicts, each exactly, and how often each is given -/

namespace Sys2Proof

variable {w : Nat}

/-- Under a well-formed map, the mnemonic of a base opcode is the one that has it. -/
theorem mnemonicOf_eq_some_iff {om : OpMap} (h : om.wellFormed = true) {b : BitVec 5} {m : Mnemonic} :
    mnemonicOf om b = some m ↔ om.code m = b :=
  ⟨code_of_mnemonicOf, fun hb => hb ▸ mnemonicOf_code h m⟩

/-- A mode and its field determine each other (30_encoding.md R91). -/
theorem eq_ofBits_iff {mode : AddrMode} {k : BitVec 2} : mode = AddrMode.ofBits k ↔ mode.bits = k :=
  ⟨fun h => h ▸ bits_ofBits k, fun h => h ▸ (ofBits_bits mode).symm⟩

theorem decodeOpcode_parity_iff {om : OpMap} {opcode p : BitVec 8} :
    decodeOpcode om opcode = .error (.parity p) ↔ parityOk opcode = false ∧ p = opcode := by
  constructor
  · intro h
    have hodd := parityOk_false_of_decodeOpcode h
    cases (decodeOpcode_of_parityOk_false hodd).symm.trans h
    exact ⟨hodd, rfl⟩
  · rintro ⟨hodd, rfl⟩
    exact decodeOpcode_of_parityOk_false hodd

theorem decodeOpcode_unassigned_iff {om : OpMap} {opcode : BitVec 8} {b : BitVec 5} :
    decodeOpcode om opcode = .error (.unassignedOpcode b) ↔
      parityOk opcode = true ∧ b = baseOpcode opcode ∧ mnemonicOf om (baseOpcode opcode) = none := by
  unfold decodeOpcode
  cases parityOk opcode with
  | false => simp
  | true =>
    cases mnemonicOf om (baseOpcode opcode) with
    | none => simp [eq_comm]
    | some m =>
      simp only [if_true]
      split <;> simp

theorem decodeOpcode_illegal_iff {om : OpMap} {opcode : BitVec 8} {k : BitVec 2} :
    decodeOpcode om opcode = .error (.illegalInstruction k) ↔
      parityOk opcode = true ∧ k = modeBits opcode ∧
        ∃ m, mnemonicOf om (baseOpcode opcode) = some m ∧ Legal m (AddrMode.ofBits (modeBits opcode)) = false := by
  unfold decodeOpcode
  cases parityOk opcode with
  | false => simp
  | true =>
    cases mnemonicOf om (baseOpcode opcode) with
    | none => simp
    | some m =>
      simp only [if_true]
      split
      · simp [*]
      · simp only [Except.error.injEq, DecodeFault.illegalInstruction.injEq, true_and, Option.some.injEq, exists_eq_left',
          eq_false_of_ne_true ‹_›, and_true]
        exact eq_comm

/-- One opcode encodes a base opcode and a mode: the one of even parity with these fields. -/
theorem encodeOpcode_eq_iff {b : BitVec 5} {mode : AddrMode} {opcode : BitVec 8} :
    encodeOpcode b mode = opcode ↔
      parityOk opcode = true ∧ b = baseOpcode opcode ∧ mode = AddrMode.ofBits (modeBits opcode) := by
  constructor
  · rintro rfl
    simp [parityOk_encodeOpcode, baseOpcode_encodeOpcode, modeBits_encodeOpcode]
  · rintro ⟨heven, rfl, rfl⟩
    exact encodeOpcode_fields opcode heven

/-- An opcode is accepted as a form exactly when the form is legal and the opcode encodes it. -/
theorem decodeOpcode_ok_iff_encode {om : OpMap} (h : om.wellFormed = true) {opcode : BitVec 8} {m : Mnemonic}
    {mode : AddrMode} :
    decodeOpcode om opcode = .ok (m, mode) ↔ Legal m mode = true ∧ encodeOpcode (om.code m) mode = opcode := by
  rw [Machine.decodeOpcode_ok_iff, encodeOpcode_eq_iff, mnemonicOf_eq_some_iff h]
  tauto

/-- An opcode is refused for its flags exactly when it encodes an illegal form of a mnemonic. -/
theorem decodeOpcode_illegal_iff_encode {om : OpMap} (h : om.wellFormed = true) {opcode : BitVec 8} {k : BitVec 2} :
    decodeOpcode om opcode = .error (.illegalInstruction k) ↔
      ∃ m mode, Legal m mode = false ∧ mode.bits = k ∧ encodeOpcode (om.code m) mode = opcode := by
  rw [decodeOpcode_illegal_iff]
  simp only [mnemonicOf_eq_some_iff h, encodeOpcode_eq_iff]
  constructor
  · rintro ⟨heven, rfl, m, hm, hl⟩
    exact ⟨m, _, hl, bits_ofBits _, heven, hm, rfl⟩
  · rintro ⟨m, mode, hl, rfl, heven, hm, rfl⟩
    exact ⟨heven, bits_ofBits _, m, hm, hl⟩

/-- The 56 pairs of a mnemonic and a mode, those of one legality (30_encoding.md R97). -/
def formsOfLegality (legal : Bool) : List (Mnemonic × AddrMode) :=
  (Mnemonic.all ×ˢ [.direct, .immediate, .indirect, .special]).filter fun f => Legal f.1 f.2 == legal

theorem mem_formsOfLegality {legal : Bool} {f : Mnemonic × AddrMode} :
    f ∈ formsOfLegality legal ↔ Legal f.1 f.2 = legal := by
  obtain ⟨m, mode⟩ := f
  have hmode : mode ∈ [AddrMode.direct, .immediate, .indirect, .special] := by cases mode <;> decide
  simp [formsOfLegality, mem_all m, hmode]

theorem nodup_formsOfLegality (legal : Bool) : (formsOfLegality legal).Nodup := by
  cases legal <;> decide

/-- The opcode of a form tells the form, under a well-formed map. -/
theorem encodeOpcode_code_injective {om : OpMap} (h : om.wellFormed = true) {f g : Mnemonic × AddrMode}
    (hfg : encodeOpcode (om.code f.1) f.2 = encodeOpcode (om.code g.1) g.2) : f = g := by
  obtain ⟨-, hb, hk⟩ := encodeOpcode_eq_iff.1 hfg
  rw [baseOpcode_encodeOpcode] at hb
  rw [modeBits_encodeOpcode, ofBits_bits] at hk
  exact Prod.ext (opMap_injective h hb) hk

/-- The verdicts over the 256 opcodes (30_encoding.md R103). -/
def allVerdicts (om : OpMap) : List (Except DecodeFault (Mnemonic × AddrMode)) :=
  (List.range 256).map fun n => decodeOpcode om (BitVec.ofNat 8 n)

/-- A verdict given exactly on the opcodes of some forms is given once for each of them. -/
theorem countP_allVerdicts {om : OpMap} (h : om.wellFormed = true) {p : Except DecodeFault (Mnemonic × AddrMode) → Bool}
    {legal : Bool} (hp : ∀ opcode, p (decodeOpcode om opcode) = true ↔
      ∃ f ∈ formsOfLegality legal, encodeOpcode (om.code f.1) f.2 = opcode) :
    (allVerdicts om).countP p = (formsOfLegality legal).length := by
  rw [allVerdicts, List.countP_map, List.countP_eq_length_filter,
    ← List.length_map (as := formsOfLegality legal) fun f => (encodeOpcode (om.code f.1) f.2).toNat]
  refine ((List.perm_ext_iff_of_nodup (List.nodup_range.filter _) ?_).2 fun n => ?_).length_eq
  · exact (nodup_formsOfLegality legal).map fun f g hfg => encodeOpcode_code_injective h (BitVec.eq_of_toNat_eq hfg)
  · simp only [List.mem_filter, List.mem_range, Function.comp_apply, hp, List.mem_map]
    constructor
    · rintro ⟨hn, f, hf, he⟩
      exact ⟨f, hf, by rw [he, BitVec.toNat_ofNat, Nat.mod_eq_of_lt hn]⟩
    · rintro ⟨f, hf, rfl⟩
      exact ⟨BitVec.isLt _, f, hf, by simp⟩

/-- Half of all opcodes are of odd parity (30_encoding.md R93). -/
theorem countP_parity_verdicts (om : OpMap) {p : Except DecodeFault (Mnemonic × AddrMode) → Bool}
    (hp : ∀ v, p v = true ↔ ∃ q, v = .error (.parity q)) : (allVerdicts om).countP p = 128 := by
  have hodd : ((List.range 256).countP fun n => !parityOk (BitVec.ofNat 8 n)) = 128 := by decide +kernel
  rw [← hodd, allVerdicts, List.countP_map]
  refine List.countP_congr fun n _ => ?_
  simp only [Function.comp_apply, hp, decodeOpcode_parity_iff, exists_eq_right, Bool.not_eq_true']

/-- The accepted opcodes are those of the legal forms. -/
theorem countP_ok_verdicts {om : OpMap} (h : om.wellFormed = true) {p : Except DecodeFault (Mnemonic × AddrMode) → Bool}
    (hp : ∀ v, p v = true ↔ ∃ f, v = .ok f) : (allVerdicts om).countP p = 32 := by
  refine countP_allVerdicts h (legal := true) fun opcode => ?_
  simp only [hp, Prod.exists, decodeOpcode_ok_iff_encode h, mem_formsOfLegality]

/-- The opcodes refused for their flags are those of the illegal forms. -/
theorem countP_illegal_verdicts {om : OpMap} (h : om.wellFormed = true)
    {p : Except DecodeFault (Mnemonic × AddrMode) → Bool}
    (hp : ∀ v, p v = true ↔ ∃ k, v = .error (.illegalInstruction k)) : (allVerdicts om).countP p = 24 := by
  refine countP_allVerdicts h (legal := false) fun opcode => ?_
  simp only [hp, Prod.exists, decodeOpcode_illegal_iff_encode h, mem_formsOfLegality]
  constructor
  · rintro ⟨_, m, mode, hl, -, he⟩
    exact ⟨m, mode, hl, he⟩
  · rintro ⟨m, mode, hl, he⟩
    exact ⟨_, m, mode, hl, rfl, he⟩

/-- Every verdict is one of four. -/
theorem countP_verdicts_add {p₁ p₂ p₃ p₄ : Except DecodeFault (Mnemonic × AddrMode) → Bool}
    (h : ∀ v, (p₁ v).toNat + (p₂ v).toNat + (p₃ v).toNat + (p₄ v).toNat = 1) :
    ∀ vs : List (Except DecodeFault (Mnemonic × AddrMode)),
      vs.countP p₁ + vs.countP p₂ + vs.countP p₃ + vs.countP p₄ = vs.length
  | [] => rfl
  | v :: vs => by
    have ih := countP_verdicts_add h vs
    have hv := h v
    simp only [List.countP_cons, List.length_cons, Bool.toNat, Bool.cond_eq_ite] at *
    omega

/-- The unassigned opcodes are the rest. -/
theorem countP_unassigned_verdicts {om : OpMap} (h : om.wellFormed = true)
    {p : Except DecodeFault (Mnemonic × AddrMode) → Bool}
    (hp : ∀ v, p v = true ↔ ∃ b, v = .error (.unassignedOpcode b)) : (allVerdicts om).countP p = 72 := by
  classical
  have total := countP_verdicts_add (p₁ := fun v => decide (∃ q, v = .error (.parity q)))
    (p₂ := fun v => decide (∃ f, v = .ok f)) (p₃ := fun v => decide (∃ k, v = .error (.illegalInstruction k))) (p₄ := p)
    (fun v => by
      rw [Bool.eq_iff_iff.2 ((hp v).trans decide_eq_true_iff.symm)]
      rcases v with (_ | _ | _) | _ <;> simp)
    (allVerdicts om)
  rw [countP_parity_verdicts om fun _ => decide_eq_true_iff, countP_ok_verdicts h fun _ => decide_eq_true_iff,
    countP_illegal_verdicts h fun _ => decide_eq_true_iff] at total
  have hlength : (allVerdicts om).length = 256 := by simp [allVerdicts]
  omega

end Sys2Proof

/-! ## The obligations of the decoder -/

namespace Sys2Proof.Proofs

open Sys2Proof.Machine

/-- Settles O3: an encoded form is accepted as itself, and every instruction's form is legal. -/
theorem decodeOfEncodeIsTheInstruction : Obligations.DecodeOfEncodeIsTheInstruction := by
  unfold Obligations.DecodeOfEncodeIsTheInstruction
  intro w om hom i
  have hlegal : Legal i.mnemonic i.mode = true := wellFormed_instr i
  exact decodeEntry_ok_iff.2 ⟨(decodeOpcode_encodeOpcode hom _ _).trans (if_pos hlegal), rfl⟩

/-- Settles O4: an accepted opcode has even parity, so it is the encoding of its fields, and they are the instruction's. -/
theorem encodeOfDecodeIsTheEntry : Obligations.EncodeOfDecodeIsTheEntry := by
  unfold Obligations.EncodeOfDecodeIsTheEntry
  intro w om e i h
  obtain ⟨hop, harg⟩ := decodeEntry_ok_iff.1 h
  obtain ⟨heven, hm, hmode, -⟩ := decodeOpcode_ok_iff.1 hop
  have hopcode : encodeOpcode (om.code i.mnemonic) i.mode = e.opcode :=
    encodeOpcode_eq_iff.2 ⟨heven, code_of_mnemonicOf hm, hmode⟩
  rw [encode, encodeForm, hopcode, harg]

/-- Settles O6, one verdict at a time. -/
theorem decoderVerdictsExactly : Obligations.DecoderVerdictsExactly := by
  unfold Obligations.DecoderVerdictsExactly
  intro om hom opcode
  refine ⟨fun m mode => ?_, fun b => ?_, fun k => ?_, fun p => ?_⟩
  · rw [decodeOpcode_ok_iff, parityOk_iff, mnemonicOf_eq_some_iff hom, eq_ofBits_iff]
  · rw [decodeOpcode_unassigned_iff, parityOk_iff, mnemonicOf_eq_none]
    refine and_congr_right fun _ => and_congr_right fun hb => ?_
    rw [hb]
  · rw [decodeOpcode_illegal_iff, parityOk_iff]
    refine and_congr_right fun _ => and_congr_right fun hk => exists_congr fun m => ?_
    rw [mnemonicOf_eq_some_iff hom]
    constructor
    · rintro ⟨hm, hl⟩
      exact ⟨_, hm, (bits_ofBits _).trans hk.symm, hl⟩
    · rintro ⟨mode, hm, hbits, hl⟩
      exact ⟨hm, eq_ofBits_iff.2 (hbits.trans hk) ▸ hl⟩
  · rw [decodeOpcode_parity_iff, parityOk_eq_false_iff]

/-- Settles O7: the accepted opcodes are those of the 32 legal forms, the ones refused for their flags those of the 24
illegal forms, half of all opcodes are odd, and the unassigned ones are the rest. -/
theorem verdictCountsForEveryMap : Obligations.VerdictCountsForEveryMap := by
  unfold Obligations.VerdictCountsForEveryMap
  intro om hom verdicts
  refine ⟨countP_parity_verdicts om ?_, countP_ok_verdicts hom ?_, countP_illegal_verdicts hom ?_,
    countP_unassigned_verdicts hom ?_⟩ <;> rintro ((_ | _ | _) | _) <;> simp

/-- Settles O8: each port is one of the checks that the verdict makes in order. -/
theorem decoderPortsAgree : Obligations.DecoderPortsAgree := by
  unfold Obligations.DecoderPortsAgree
  intro om opcode
  have hflags : (decoderPorts om opcode).flagsLegal = true ↔
      ∃ m, mnemonicOf om (baseOpcode opcode) = some m ∧ Legal m (AddrMode.ofBits (modeBits opcode)) = true := by
    simp [decoderPorts, Option.any_eq_true]
  refine ⟨?_, fun m mode h => ?_, fun h => ?_⟩
  · simp only [decoderPorts, decodeOpcode_ok_iff] at hflags ⊢
    rw [hflags]
    constructor
    · rintro ⟨m, mode, heven, hm, rfl, hl⟩
      exact ⟨heven, Option.isSome_iff_exists.2 ⟨m, hm⟩, m, hm, hl⟩
    · rintro ⟨heven, -, m, hm, hl⟩
      exact ⟨m, _, heven, hm, rfl, hl⟩
  · obtain ⟨-, hm, hmode, -⟩ := decodeOpcode_ok_iff.1 h
    refine ⟨hm, (eq_ofBits_iff.1 hmode).symm, ?_⟩
    have hv : decodeOpcode om opcode = .ok (m, mode) := h
    simp only [decoderPorts, hv]
  · obtain ⟨m, hm, -⟩ := hflags.1 h
    simp [decoderPorts, hm]

/-- Settles O1, by evaluating the decoder on the fourteen words. -/
theorem listedWordsDecode : Obligations.ListedWordsDecode := by
  unfold Obligations.ListedWordsDecode
  decide

end Sys2Proof.Proofs

/-! ## An effect as an update: what an instruction will write, apart from the state it is written to -/

namespace Sys2Proof.Machine

variable {w : Nat}

/-- The writes of a completed effect: a value into `acc` and the increment, a new `pc`, a store and the increment, HALTED. -/
inductive Update (w : Nat) where
  | acc (v : Word w)
  | pc (p : Word w)
  | store (i v : Word w)
  | halt

/-- An update made in a state. -/
def Update.apply (s : State w) : Update w → State w
  | .acc v => writeAcc s v
  | .pc p => { s with pc := p }
  | .store i v => advance (memWrite s i v)
  | .halt => { s with halted := true }

/-- What an instruction of the value path makes of the accumulator and its operand. -/
def valueResult (m : Mnemonic) (acc x : Word w) : Except (Fault w) (Word w) :=
  match m with
  | .add => .ok (addW acc x)
  | .sub => .ok (subW acc x)
  | .mul => .ok (mulW acc x)
  | .div => if x = 0 then .error .divideByZero else .ok (divW acc x)
  | .lod => .ok x
  | .and => .ok (truthWord (isNonZero acc && isNonZero x))
  | .cmpl => .ok (truthWord (isNegative x))
  | .cmpz => .ok (truthWord (isZero x))
  | .nop | .halt | .not | .jump | .jmpz | .sto => .ok acc

/-- The update of an instruction in a state, by its dispatch path, or the fault it raises: `effect` without the writing
(`effect_eq_update`). -/
def updateOf (i : Instr w) (s : State w) : Except (Fault w) (Update w) :=
  match i.mnemonic.path with
  | .none =>
    .ok (if i.mnemonic = .halt then .halt
      else if i.mnemonic = .not then .acc (truthWord (isZero s.acc)) else .pc (nextPc s.pc))
  | .value => (operand i.mode i.arg s).bind fun x => (valueResult i.mnemonic s.acc x).map .acc
  | .store => (storeAddr i.mode i.arg s).map fun b => .store b s.acc
  | .target =>
    if i.mnemonic = .jmpz ∧ s.acc ≠ 0 then .ok (.pc (nextPc s.pc)) else (jumpTarget i.mode i.arg s.pc s).map .pc

theorem updateOf_value {i : Instr w} (h : i.mnemonic.path = .value) (s : State w) :
    updateOf i s = (operand i.mode i.arg s).bind fun x => (valueResult i.mnemonic s.acc x).map .acc := by
  rw [updateOf, h]

theorem updateOf_store {i : Instr w} (h : i.mnemonic.path = .store) (s : State w) :
    updateOf i s = (storeAddr i.mode i.arg s).map fun b => .store b s.acc := by
  rw [updateOf, h]

theorem updateOf_taken {i : Instr w} {s : State w} (h : i.mnemonic.path = .target)
    (ht : ¬ (i.mnemonic = .jmpz ∧ s.acc ≠ 0)) :
    updateOf i s = (jumpTarget i.mode i.arg s.pc s).map .pc := by
  rw [updateOf, h]
  exact if_neg ht

theorem updateOf_untaken {i : Instr w} {s : State w} (h : i.mnemonic = .jmpz ∧ s.acc ≠ 0) :
    updateOf i s = .ok (.pc (nextPc s.pc)) := by
  rw [updateOf, h.1]
  exact if_pos ⟨rfl, h.2⟩

theorem operandEffect_eq_update (f : Word w → Word w → Word w) (mode : AddrMode) (a : Word w) (s : State w) :
    operandEffect f mode a s =
      ((operand mode a s).bind fun x => (Except.ok (f s.acc x)).map Update.acc).map (Update.apply s) := by
  unfold operandEffect
  cases operand mode a s <;> rfl

theorem effectDiv_eq_update (mode : AddrMode) (a : Word w) (s : State w) :
    effectDiv mode a s =
      ((operand mode a s).bind fun x => (valueResult .div s.acc x).map Update.acc).map (Update.apply s) := by
  unfold effectDiv valueResult
  cases operand mode a s with
  | error f => rfl
  | ok x =>
    simp only [Except.bind]
    split <;> rfl

theorem effectSto_eq_update (mode : AddrMode) (a : Word w) (s : State w) :
    effectSto mode a s = ((storeAddr mode a s).map fun b => Update.store b s.acc).map (Update.apply s) := by
  unfold effectSto
  cases storeAddr mode a s <;> rfl

theorem effectJump_eq_update (mode : AddrMode) (a : Word w) (s : State w) :
    effectJump mode a s = ((jumpTarget mode a s.pc s).map Update.pc).map (Update.apply s) := by
  unfold effectJump
  cases jumpTarget mode a s.pc s <;> rfl

theorem effectJmpz_eq_update (mode : AddrMode) (a : Word w) (s : State w) :
    effectJmpz mode a s = (if Mnemonic.jmpz = .jmpz ∧ s.acc ≠ 0 then Except.ok (Update.pc (nextPc s.pc))
      else (jumpTarget mode a s.pc s).map Update.pc).map (Update.apply s) := by
  by_cases hacc : s.acc = 0
  · rw [effectJmpz_taken hacc, effectJump_eq_update, if_neg (by simp [hacc])]
  · rw [effectJmpz_untaken hacc, if_pos ⟨rfl, hacc⟩]
    rfl

/-- An effect is the update of its instruction, made in the state that it starts in. -/
theorem effect_eq_update (i : Instr w) (s : State w) : effect i s = (updateOf i s).map (Update.apply s) := by
  have hlegal : Legal i.mnemonic i.mode = true := wellFormed_instr i
  rw [effect_eq_effectOf, updateOf]
  generalize i.mnemonic = m at hlegal ⊢
  cases m with
  | nop | halt | not => rfl
  | add => exact operandEffect_eq_update addW _ _ s
  | sub => exact operandEffect_eq_update subW _ _ s
  | mul => exact operandEffect_eq_update mulW _ _ s
  | div => exact effectDiv_eq_update _ _ s
  | lod => exact operandEffect_eq_update (fun _ x => x) _ _ s
  | and => exact operandEffect_eq_update (fun acc x => truthWord (isNonZero acc && isNonZero x)) _ _ s
  | cmpl =>
    rw [mode_of_legal_compare (.inl rfl) hlegal]
    exact operandEffect_eq_update (fun _ x => truthWord (isNegative x)) .direct i.arg s
  | cmpz =>
    rw [mode_of_legal_compare (.inr rfl) hlegal]
    exact operandEffect_eq_update (fun _ x => truthWord (isZero x)) .direct i.arg s
  | sto => exact effectSto_eq_update _ _ s
  | jump => exact effectJump_eq_update _ _ s
  | jmpz => exact effectJmpz_eq_update _ _ s

theorem effect_of_updateOf_ok {i : Instr w} {s : State w} {u : Update w} (h : updateOf i s = .ok u) :
    effect i s = .ok (u.apply s) := by
  rw [effect_eq_update, h]
  rfl

theorem effect_error_iff {i : Instr w} {s : State w} {f : Fault w} : effect i s = .error f ↔ updateOf i s = .error f := by
  rw [effect_eq_update, map_eq_error_iff]

/-- What an instruction reports, by its update. -/
theorem effectReport_eq_update (i : Instr w) (s : State w) :
    effectReport i s = concludeReport s (isHalt i) ((updateOf i s).map (Update.apply s)) := by
  rw [effectReport, effect_eq_update]

/-- The update depends on `acc`, `pc` and the data store alone. -/
theorem updateOf_congr {s t : State w} (hacc : t.acc = s.acc) (hpc : t.pc = s.pc) (hdata : t.data = s.data) (i : Instr w) :
    updateOf i t = updateOf i s := by
  unfold updateOf
  rw [hacc, hpc, operand_congr hdata, storeAddr_congr hdata, jumpTarget_congr hdata]

/-- The update of HALT. -/
theorem updateOf_halt {i : Instr w} (h : isHalt i = true) (s : State w) : updateOf i s = .ok .halt := by
  have hm : i.mnemonic = .halt := beq_iff_eq.1 h
  rw [updateOf, hm]
  rfl

/-- Only HALT sets HALTED. -/
theorem isHalt_of_updateOf_halt {i : Instr w} {s : State w} (h : updateOf i s = .ok .halt) : isHalt i = true := by
  unfold updateOf at h
  split at h
  · split at h
    · exact beq_iff_eq.2 ‹_›
    · split at h <;> cases h
  · cases hx : operand i.mode i.arg s with
    | error f => simp [hx, Except.bind] at h
    | ok x => cases hv : valueResult i.mnemonic s.acc x <;> simp [hx, hv, Except.bind, Except.map] at h
  · obtain ⟨_, -, ⟨⟩⟩ := map_eq_ok_iff.1 h
  · split at h
    · cases h
    · obtain ⟨_, -, ⟨⟩⟩ := map_eq_ok_iff.1 h

/-- Only a STO stores: the accumulator, at its store index. -/
theorem updateOf_eq_store {i : Instr w} {s : State w} {b v : Word w} (h : updateOf i s = .ok (.store b v)) :
    i.mnemonic = .sto ∧ storeAddr i.mode i.arg s = .ok b ∧ v = s.acc := by
  unfold updateOf at h
  split at h
  · split at h
    · cases h
    · split at h <;> cases h
  · cases hx : operand i.mode i.arg s with
    | error f => simp [hx, Except.bind] at h
    | ok x => cases hv : valueResult i.mnemonic s.acc x <;> simp [hx, hv, Except.bind, Except.map] at h
  next hpath =>
    obtain ⟨b', hb, heq⟩ := map_eq_ok_iff.1 h
    obtain ⟨rfl, rfl⟩ := Update.store.inj heq
    refine ⟨?_, hb, rfl⟩
    revert hpath
    cases i.mnemonic <;> simp [Mnemonic.path]
  · split at h
    · cases h
    · obtain ⟨_, -, ⟨⟩⟩ := map_eq_ok_iff.1 h

@[simp] theorem Update.apply_code (u : Update w) (s : State w) : (u.apply s).code = s.code := by
  cases u <;> simp [Update.apply]

/-! ## A step: what it fetches, reports and leaves -/

/-- The step depends on `code` and `pc` for what it fetches. -/
theorem fetchDecode_congr {s t : State w} (hcode : t.code = s.code) (hpc : t.pc = s.pc) (om : OpMap) :
    fetchDecode om t = fetchDecode om s := by
  unfold fetchDecode codeRead inCode State.codeSize
  rw [hcode, hpc]

/-- Everything a step can report: a fault and nothing else, or an update made and the signal of HALT. -/
theorem stepReportWith_update_cases (om : OpMap) (s : State w) :
    (∃ f, stepReportWith om s = faultReport s f) ∨
      ∃ i u, fetchDecode om s = .ok i ∧ updateOf i s = .ok u ∧ stepReportWith om s = ⟨u.apply s, .done, isHalt i⟩ := by
  cases hfd : fetchDecode om s with
  | error f => exact .inl ⟨f, stepReportWith_of_error hfd⟩
  | ok i =>
    rw [stepReportWith_of_ok hfd, effectReport_eq_update]
    cases hu : updateOf i s with
    | error f => exact .inl ⟨f, rfl⟩
    | ok u => exact .inr ⟨i, u, rfl, hu, rfl⟩

/-- The run state after a step: as before, or HALTED with the signal (60_exceptions.md R248). -/
theorem stepReportWith_halted (om : OpMap) (s : State w) :
    (stepReportWith om s).state.halted = (s.halted || (stepReportWith om s).haltSignal) := by
  rcases stepReportWith_update_cases om s with ⟨f, hr⟩ | ⟨i, u, -, hu, hr⟩ <;> rw [hr]
  · simp [faultReport]
  · cases hh : isHalt i with
    | true =>
      cases (updateOf_halt hh s).symm.trans hu
      simp [Update.apply]
    | false =>
      cases u with
      | halt => simp [isHalt_of_updateOf_halt hu] at hh
      | acc | pc | store => simp [Update.apply]

/-- A step that asserts the signal sets HALTED and changes nothing else. -/
theorem stepReportWith_state_of_signal {om : OpMap} {s : State w} (h : (stepReportWith om s).haltSignal = true) :
    (stepReportWith om s).state = { s with halted := true } := by
  rcases stepReportWith_update_cases om s with ⟨f, hr⟩ | ⟨i, u, -, hu, hr⟩ <;> rw [hr] at h ⊢
  · rfl
  · cases (updateOf_halt h s).symm.trans hu
    rfl

theorem isHalt_iff {i : Instr w} : isHalt i = true ↔ ∃ a, i = .halt a := by
  cases i <;> simp [isHalt, Instr.mnemonic]

/-- A step in a state that differs in `halted` alone, the update made in that state: `halted` is not read (10_state.md
R27). -/
theorem stepReportWith_setHalted (om : OpMap) (s : State w) (b : Bool) :
    (∃ f, stepReportWith om s = faultReport s f ∧ stepReportWith om { s with halted := b } = faultReport s f) ∨
      ∃ (i : Instr w) (u : Update w), stepReportWith om s = ⟨u.apply s, .done, isHalt i⟩ ∧ (isHalt i = true → u = .halt) ∧
        stepReportWith om { s with halted := b } = ⟨u.apply { s with halted := b }, .done, isHalt i⟩ := by
  have hfetch : fetchDecode om { s with halted := b } = fetchDecode om s := fetchDecode_congr rfl rfl om
  cases hfd : fetchDecode om s with
  | error f =>
    exact .inl ⟨f, stepReportWith_of_error hfd, stepReportWith_of_error (hfetch.trans hfd)⟩
  | ok i =>
    rw [stepReportWith_of_ok hfd, stepReportWith_of_ok (hfetch.trans hfd), effectReport_eq_update, effectReport_eq_update]
    have hupdate : updateOf i { s with halted := b } = updateOf i s := updateOf_congr rfl rfl rfl i
    rw [hupdate]
    cases hu : updateOf i s with
    | error f => exact .inl ⟨f, rfl, rfl⟩
    | ok u => exact .inr ⟨i, u, rfl, fun hh => Except.ok.inj (hu.symm.trans (updateOf_halt hh s)), rfl⟩

theorem Update.apply_setHalted (u : Update w) (s : State w) (b : Bool) :
    { u.apply { s with halted := b } with halted := true } = { u.apply s with halted := true } := by
  cases u with
  | acc | pc | halt => rfl
  | store i v =>
    simp only [Update.apply, memWrite]
    cases dataIndex? i <;> rfl

/-- A run counts its steps from either end. -/
theorem stepsFrom_succ (om : OpMap) : ∀ (n : Nat) (s : State w),
    stepsFrom om (n + 1) s = (stepReportWith om (stepsFrom om n s)).state
  | 0, _ => rfl
  | n + 1, s => stepsFrom_succ om n (stepReportWith om s).state

/-- A run ends with the first signal, so it ends once. -/
theorem runEndsAt_unique {om : OpMap} {s : State w} {k n : Nat} (hk : RunEndsAt om s k) (hn : RunEndsAt om s n) : k = n := by
  obtain ⟨hk, hk'⟩ := hk
  obtain ⟨hn, hn'⟩ := hn
  rcases Nat.lt_trichotomy k n with h | h | h
  · simp [hn' k h] at hk
  · exact h
  · simp [hk' n h] at hn

end Sys2Proof.Machine

/-! ## The obligations of the step and of a run -/

namespace Sys2Proof.Proofs

open Sys2Proof.Machine

/-- Settles O9: fetch and decode answer the instruction, and the step is then its execution. -/
theorem stepRunsTheDecodedInstruction : Obligations.StepRunsTheDecodedInstruction := by
  unfold Obligations.StepRunsTheDecodedInstruction
  have general : ∀ {w : Nat} {om : OpMap} {e : CodeEntry w} {i : Instr w} {s : State w}, Fetches s e →
      decodeEntry om e = .ok i → stepWith om s = execAt i s ∧ stepReportWith om s = effectReport i s := by
    intro w om e i s hf hd
    have hr := stepReportWith_of_ok (fetchDecode_ok hf hd)
    exact ⟨by rw [stepWith_eq, execAt_report, hr], hr⟩
  have atDefault : ∀ {e : CodeEntry} {i : Instr} {s : State}, Fetches s e → decodeEntry Config.opMap e = .ok i →
      step s = exec i s := by
    intro e i s hf hd
    rw [step_eq_stepWith, (general hf hd).1, exec_eq_execAt]
  exact ⟨fun _ _ _ _ _ => general, fun e i s hf hd => ⟨atDefault hf hd, exec_eq_execAt i s⟩,
    fun i s hf => atDefault hf (decodeOfEncodeIsTheInstruction _ _ (by decide) i), step_eq_stepWith⟩

/-- Settles O10: each outcome is the state of its report. -/
theorem stepIsTotal : Obligations.StepIsTotal := by
  unfold Obligations.StepIsTotal
  exact ⟨fun _ => stepWith_eq, fun _ => execAt_report, fun i s => (exec_eq_execAt i s).trans (execAt_report i s),
    fun s => (step_eq_stepWith s).trans (stepWith_eq _ s)⟩

/-- Settles O13: a step that reports a fault is the fault entry. -/
theorem faultChangesOnlyHalted : Obligations.FaultChangesOnlyHalted := by
  unfold Obligations.FaultChangesOnlyHalted
  intro w om s f h
  have hr := stepReportWith_of_fault h
  exact ⟨hr, by rw [stepWith_eq, hr, faultReport]⟩

/-- Settles O11: the fetch is the first check. -/
theorem codeAccessAtFetch : Obligations.CodeAccessAtFetch := by
  unfold Obligations.CodeAccessAtFetch
  intro w om s hout
  have hfd : fetchDecode om s = .error (.codeAccess s.pc) := by
    unfold fetchDecode
    rw [codeRead_of_out hout]
  have hr := stepReportWith_of_error hfd
  exact ⟨hr, (faultChangesOnlyHalted w om s _ (by rw [hr, faultReport])).2⟩

/-- Settles O14: the signal of a completed step is whether its instruction is HALT. -/
theorem haltSignalExactly : Obligations.HaltSignalExactly := by
  unfold Obligations.HaltSignalExactly
  refine fun w om s => ⟨?_, fun h => by simp [stepReportWith_halted, h]⟩
  rcases stepReportWith_update_cases om s with ⟨f, hr⟩ | ⟨i, u, hfd, -, hr⟩
  · simp [hr, faultReport]
  · simp [hr, hfd, isHalt_iff]

/-- Settles O15: the state after the signal differs from the one before in `halted` alone, which no step reads; a fault and
a HALT set it again. -/
theorem haltedStepRepeats : Obligations.HaltedStepRepeats := by
  unfold Obligations.HaltedStepRepeats
  intro w om s h
  rw [stepReportWith_state_of_signal h]
  rcases stepReportWith_setHalted om s true with ⟨f, hr, hr'⟩ | ⟨i, u, hr, hu, hr'⟩
  · rw [hr, hr']
  · rw [hr] at h
    obtain rfl := hu h
    rw [hr, hr']
    rfl

/-- Settles O16: the report is of the same fault, or of the same update made in a state that differs in `halted` alone. -/
theorem haltedIsNotRead : Obligations.HaltedIsNotRead := by
  unfold Obligations.HaltedIsNotRead
  intro w om s b
  rcases stepReportWith_setHalted om s b with ⟨f, hr, hr'⟩ | ⟨i, u, hr, -, hr'⟩ <;> rw [hr, hr']
  · exact ⟨rfl, rfl, rfl⟩
  · exact ⟨rfl, rfl, u.apply_setHalted s b⟩

/-- Settles O58: the end is the first signal, so there is one; HALT reports no fault; and the state after a signal is
HALTED. -/
theorem runEndIsUnique : Obligations.RunEndIsUnique := by
  unfold Obligations.RunEndIsUnique
  intro w om s n hn
  obtain ⟨hsignal, -⟩ := id hn
  obtain ⟨hiff, hhalted⟩ := haltSignalExactly w om (stepsFrom om n s)
  refine ⟨fun k hk => runEndsAt_unique hk hn, ?_, ?_, ?_⟩
  · rcases hiff.1 hsignal with ⟨a, ha⟩ | hf
    · refine .inl ⟨⟨hn, ?_⟩, a, ha⟩
      rw [reportAt, stepReportWith_of_ok ha]
      rfl
    · exact .inr ⟨hn, hf⟩
  · rintro ⟨⟨-, hdone⟩, -, f, hf⟩
    cases hdone.symm.trans hf
  · rw [stepsFrom_succ]
    exact hhalted hsignal

end Sys2Proof.Proofs

/-! ## The checks of a step, in their order -/

namespace Sys2Proof.Machine

variable {w : Nat}

/-- A step fetches an entry, or its `pc` is the index of none and the fetch fails (40_fetch_decode_dispatch.md R151). -/
theorem fetches_or_codeAccess (om : OpMap) (s : State w) :
    (∃ e, Fetches s e) ∨ ((∀ e, ¬ Fetches s e) ∧ fetchDecode om s = .error (.codeAccess s.pc)) := by
  rcases codeRead_cases s s.pc with ⟨k, e, hk, he, -⟩ | ⟨hout, hread⟩
  · exact .inl ⟨e, k, hk, he⟩
  · refine .inr ⟨?_, by rw [fetchDecode, hread]⟩
    rintro e ⟨k, hk, he⟩
    have : k < s.codeSize := (List.getElem?_eq_some_iff.1 he).1
    omega

/-- An entry is refused exactly as its opcode is: a form that the legality check passes has a constructor. -/
theorem decodeEntry_error_iff {om : OpMap} {e : CodeEntry w} {f : DecodeFault} :
    decodeEntry om e = .error f ↔ decodeOpcode om e.opcode = .error f := by
  refine ⟨fun h => ?_, decodeEntry_of_error⟩
  unfold decodeEntry at h
  split at h
  · cases h; assumption
  next m mode hd =>
    obtain ⟨-, -, -, hl⟩ := decodeOpcode_ok_iff.1 hd
    rw [← ofForm_isSome m mode e.arg] at hl
    obtain ⟨i, hi⟩ := Option.isSome_iff_exists.1 hl
    simp [hi] at h

/-- What a step that fetches an entry can fail with: the refusal of its opcode, or the fault of its effect. -/
theorem stepReportWith_fault_iff {om : OpMap} {s : State w} {e : CodeEntry w} (hf : Fetches s e) {f : Fault w} :
    (stepReportWith om s).result = .fault f ↔
      (∃ g, decodeOpcode om e.opcode = .error g ∧ f = faultOfDecode g) ∨
        ∃ i, decodeEntry om e = .ok i ∧ effect i s = .error f := by
  simp only [← decodeEntry_error_iff]
  cases hd : decodeEntry om e with
  | error g => simp [stepReportWith_of_error (fetchDecode_refused hf hd), faultReport, eq_comm]
  | ok i => simp [stepReportWith_of_ok (fetchDecode_ok hf hd), effectReport_fault_iff]

theorem firstBadRead_read_of_index {a : Word w} {k : Fin Config.dataSlots} (h : dataIndex? a = some k)
    (rest : List (Access w)) : firstBadRead (.read a :: rest) = firstBadRead rest := by
  simp [firstBadRead, h]

theorem firstBadRead_read_of_none {a : Word w} (h : dataIndex? a = none) (rest : List (Access w)) :
    firstBadRead (.read a :: rest) = some a := by
  simp [firstBadRead, h]

/-- A read alone fails as the first bad read says. -/
theorem memRead_error_iff {s : State w} {a : Word w} {f : Fault w} :
    memRead s a = .error f ↔ ∃ bad, firstBadRead [.read a] = some bad ∧ f = .dataAccess bad := by
  rcases memRead_cases s a with ⟨k, hk, hr⟩ | ⟨hn, hr⟩ <;> rw [hr]
  · rw [firstBadRead_read_of_index hk]
    simp [firstBadRead]
  · rw [firstBadRead_read_of_none hn]
    simp [eq_comm]

/-- No form of the value path is special (30_encoding.md R97, R106). -/
theorem mode_of_legal_value {m : Mnemonic} {mode : AddrMode} (hl : Legal m mode = true) (hp : m.path = .value) :
    mode ≠ .special := by
  revert hl hp
  cases m <;> cases mode <;> decide

/-- STO is direct or indirect (30_encoding.md R97). -/
theorem mode_of_legal_store {m : Mnemonic} {mode : AddrMode} (hl : Legal m mode = true) (hp : m.path = .store) :
    mode = .direct ∨ mode = .indirect := by
  revert hl hp
  cases m <;> cases mode <;> decide

/-- The operand fails as the first bad read of the access list says (40_fetch_decode_dispatch.md R159). -/
theorem operand_error_iff {i : Instr w} (h : i.mnemonic.path = .value) {s : State w} {f : Fault w} :
    operand i.mode i.arg s = .error f ↔ ∃ bad, firstBadRead (accesses i s) = some bad ∧ f = .dataAccess bad := by
  have hmode := mode_of_legal_value (wellFormed_instr i) h
  rw [accesses, h]
  cases hm : i.mode with
  | direct => exact memRead_error_iff
  | immediate => simp [firstBadRead]
  | special => exact absurd hm hmode
  | indirect =>
    rcases memRead_cases s i.arg with ⟨k, hk, hr⟩ | ⟨hn, hr⟩
    · rw [operand_indirect hk]
      simp only [accessesThrough, hr, firstBadRead_read_of_index hk]
      exact memRead_error_iff
    · rw [operand_indirect_none hn]
      simp only [accessesThrough, hr]
      rw [firstBadRead_read_of_none hn]
      simp [eq_comm]

/-- So does the store index. -/
theorem storeAddr_error_iff {i : Instr w} (h : i.mnemonic.path = .store) {s : State w} {f : Fault w} :
    storeAddr i.mode i.arg s = .error f ↔ ∃ bad, firstBadRead (accesses i s) = some bad ∧ f = .dataAccess bad := by
  rw [accesses, h]
  rcases mode_of_legal_store (wellFormed_instr i) h with hmode | hmode <;> rw [hmode]
  · simp [firstBadRead]
  · rw [storeAddr_indirect, memRead_error_iff]
    rcases memRead_cases s i.arg with ⟨k, hk, hr⟩ | ⟨hn, hr⟩ <;> simp only [accessesThrough, hr]
    rw [firstBadRead_read_of_index hk, firstBadRead_read_of_index hk]
    rfl

/-- So does the target of a jump that is taken. -/
theorem jumpTarget_error_iff {i : Instr w} {s : State w} (h : i.mnemonic.path = .target)
    (ht : ¬ (i.mnemonic = .jmpz ∧ s.acc ≠ 0)) {f : Fault w} :
    jumpTarget i.mode i.arg s.pc s = .error f ↔ ∃ bad, firstBadRead (accesses i s) = some bad ∧ f = .dataAccess bad := by
  rw [accesses, h]
  cases i.mode with
  | direct | immediate => simp [firstBadRead]
  | special =>
    simp only [if_neg ht]
    exact memRead_error_iff
  | indirect =>
    simp only [if_neg ht]
    rw [← memRead_error_iff (s := s), jumpTarget]
    cases memRead s i.arg <;> simp

/-- A jump that is not taken reads nothing (40_fetch_decode_dispatch.md R159). -/
theorem accesses_untaken {i : Instr w} {s : State w} (h : i.mnemonic = .jmpz ∧ s.acc ≠ 0) : accesses i s = [] := by
  have hpath : i.mnemonic.path = .target := by rw [h.1]; rfl
  rw [accesses, hpath]
  cases i.mode <;> simp only [if_pos h]

theorem valueResult_error_iff {m : Mnemonic} {acc x : Word w} {f : Fault w} :
    valueResult m acc x = .error f ↔ m = .div ∧ x = 0 ∧ f = .divideByZero := by
  cases m with
  | div =>
    simp only [valueResult, true_and]
    split
    next hx => simp [hx, eq_comm]
    next hx => exact ⟨nofun, fun ⟨h, _⟩ => absurd h hx⟩
  | nop | add | sub | mul | halt | jump | jmpz | lod | sto | not | and | cmpl | cmpz => simp [valueResult]

/-- The checks of an execution: its reads in order, then DIV's zero test (60_exceptions.md R249). -/
theorem effect_error_iff_checks {i : Instr w} {s : State w} {f : Fault w} :
    effect i s = .error f ↔
      (∃ bad, firstBadRead (accesses i s) = some bad ∧ f = .dataAccess bad) ∨
        (firstBadRead (accesses i s) = none ∧ i.mnemonic = .div ∧ OperandIs i.mode i.arg s 0 ∧ f = .divideByZero) := by
  have notDiv : i.mnemonic.path ≠ .value → i.mnemonic ≠ .div := by
    intro h hdiv
    exact h (by rw [hdiv]; rfl)
  rw [effect_error_iff]
  cases hpath : i.mnemonic.path with
  | none =>
    have hacc : accesses i s = [] := by rw [accesses, hpath]
    simp [updateOf, hpath, hacc, firstBadRead, notDiv]
  | store =>
    rw [updateOf_store hpath, map_eq_error_iff, storeAddr_error_iff hpath]
    simp [notDiv, hpath]
  | target =>
    have hdiv : i.mnemonic ≠ .div := notDiv (by simp [hpath])
    by_cases ht : i.mnemonic = .jmpz ∧ s.acc ≠ 0
    · rw [updateOf_untaken ht, accesses_untaken ht]
      simp [firstBadRead, hdiv]
    · rw [updateOf_taken hpath ht, map_eq_error_iff, jumpTarget_error_iff hpath ht]
      simp [hdiv]
  | value =>
    rw [updateOf_value hpath, ← operand_error_iff hpath]
    cases hx : operand i.mode i.arg s with
    | error g =>
      obtain ⟨bad, hbad, -⟩ := (operand_error_iff hpath).1 hx
      simp [Except.bind, hbad]
    | ok x =>
      have hnone : firstBadRead (accesses i s) = none := by
        cases hbad : firstBadRead (accesses i s) with
        | none => rfl
        | some bad => cases hx.symm.trans ((operand_error_iff hpath).2 ⟨bad, hbad, rfl⟩)
      simp only [Except.bind, map_eq_error_iff, valueResult_error_iff, hnone, ← operand_ok_iff, hx]
      simp

/-- The access list of an instruction that does not store holds no write. -/
theorem accessEvents_of_not_store {i : Instr w} (h : i.mnemonic.path ≠ .store) (v : Word w) (s : State w) :
    accessEvents v (accesses i s) = [] := by
  have through : ∀ a, accessEvents v (accessesThrough .read a s) = [] := by
    intro a
    unfold accessesThrough
    cases memRead s a <;> rfl
  rw [accesses]
  cases hpath : i.mnemonic.path with
  | none => rfl
  | store => exact absurd hpath h
  | value =>
    cases i.mode with
    | indirect => exact through i.arg
    | direct | immediate | special => rfl
  | target =>
    cases i.mode with
    | direct | immediate => rfl
    | indirect | special =>
      simp only
      split <;> rfl

/-- The access list of a STO holds the write at its store index, when there is one. -/
theorem accessEvents_of_store {i : Instr w} (h : i.mnemonic.path = .store) (v : Word w) (s : State w) :
    (∃ b, storeAddr i.mode i.arg s = .ok b ∧ accessEvents v (accesses i s) = writeEvents b v) ∨
      ((∃ f, storeAddr i.mode i.arg s = .error f) ∧ accessEvents v (accesses i s) = []) := by
  rw [accesses, h]
  rcases mode_of_legal_store (wellFormed_instr i) h with hmode | hmode <;> rw [hmode]
  · exact .inl ⟨i.arg, rfl, List.append_nil _⟩
  · rw [storeAddr_indirect]
    simp only [accessesThrough]
    cases hr : memRead s i.arg with
    | ok b => exact .inl ⟨b, rfl, List.append_nil _⟩
    | error f => exact .inr ⟨⟨f, rfl⟩, rfl⟩

end Sys2Proof.Machine

/-! ## The obligations of the fixed order of checks and of the mux -/

namespace Sys2Proof.Proofs

open Sys2Proof.Machine

/-- Settles O12: the fetch, then the decoder's three checks, then those of the execution. -/
theorem faultPriority : Obligations.FaultPriority := by
  unfold Obligations.FaultPriority
  intro w om hom s f
  rcases fetches_or_codeAccess om s with ⟨e, he⟩ | ⟨hnone, hfd⟩
  · have hfetch : ∀ {P : CodeEntry w → Prop},
        (f = .codeAccess s.pc ∧ ∀ e, ¬ Fetches s e) ∨ (∃ e, Fetches s e ∧ P e) ↔ P e := by
      intro P
      constructor
      · rintro (⟨-, h⟩ | ⟨e', he', h⟩)
        · exact absurd he (h e)
        · exact fetches_unique he' he ▸ h
      · exact fun h => .inr ⟨e, he, h⟩
    rw [hfetch, stepReportWith_fault_iff he]
    obtain ⟨hok, hunassigned, hillegal, hparity⟩ := decoderVerdictsExactly om hom e.opcode
    simp only [← effect_error_iff_checks]
    constructor
    · rintro (⟨_ | _ | _, hg, rfl⟩ | ⟨i, hi, hchecks⟩)
      · obtain ⟨hodd, rfl⟩ := (hparity _).1 hg
        exact .inl ⟨rfl, hodd⟩
      · obtain ⟨heven, rfl, hb⟩ := (hunassigned _).1 hg
        exact .inr ⟨heven, .inl ⟨rfl, hb⟩⟩
      · obtain ⟨heven, rfl, m, mode, hm, hbits, hl⟩ := (hillegal _).1 hg
        exact .inr ⟨heven, .inr ⟨m, hm, .inl ⟨rfl, eq_ofBits_iff.2 hbits ▸ hl⟩⟩⟩
      · obtain ⟨heven, hm, -⟩ := (hok _ _).1 (decodeEntry_ok_iff.1 hi).1
        exact .inr ⟨heven, .inr ⟨_, hm, .inr ⟨i, hi, hchecks⟩⟩⟩
    · rintro (⟨rfl, hodd⟩ | ⟨heven, ⟨rfl, hb⟩ | ⟨m, hm, ⟨rfl, hl⟩ | ⟨i, hi, hchecks⟩⟩⟩)
      · exact .inl ⟨_, (hparity _).2 ⟨hodd, rfl⟩, rfl⟩
      · exact .inl ⟨_, (hunassigned _).2 ⟨heven, rfl, hb⟩, rfl⟩
      · exact .inl ⟨_, (hillegal _).2 ⟨heven, rfl, m, _, hm, bits_ofBits _, hl⟩, rfl⟩
      · exact .inr ⟨i, hi, hchecks⟩
  · rw [stepReportWith_of_error hfd]
    simp only [faultReport, StepResult.fault.injEq, hnone, false_and, exists_false, or_false, not_false_eq_true,
      implies_true, and_true]
    exact eq_comm

/-- Settles O22: the mux by its path. -/
theorem muxFollowsThePath : Obligations.MuxFollowsThePath := by
  unfold Obligations.MuxFollowsThePath
  intro w i s
  have hlegal : Legal i.mnemonic i.mode = true := wellFormed_instr i
  generalize i.mnemonic = m at hlegal
  cases hpath : m.path with
  | none => exact ⟨fun x => by simp [mux], by simp [mux], nofun⟩
  | value =>
    refine ⟨fun x => ?_, ?_, fun f hf => operand_error (mode_of_legal_value hlegal hpath) (mux_value_eq_error_iff.1 hf)⟩
    · simp [mux, map_eq_ok_iff, operand_ok_iff]
    · simp [mux, map_eq_ok_iff]
  | store =>
    refine ⟨fun x => ?_, ?_, fun f hf => ?_⟩
    · simp [mux, map_eq_ok_iff, storeAddr_ok_iff]
    · simp [mux, map_eq_ok_iff]
    · rw [mux_store_eq_error_iff] at hf
      rcases mode_of_legal_store hlegal hpath with hmode | hmode <;> rw [hmode] at hf
      · cases hf
      · exact ⟨_, memRead_error hf⟩
  | target =>
    refine ⟨fun x => ?_, ?_, fun f hf => jumpTarget_error (mux_target_eq_error_iff.1 hf)⟩
    · simp [mux, map_eq_ok_iff, jumpTarget_ok_iff]
    · simp [mux, map_eq_ok_iff]

end Sys2Proof.Proofs

/-! ## The invariant, and what each operation of either agent leaves -/

namespace Sys2Proof.Machine

variable {w : Nat}

/-- The invariant is one of the two stores. -/
theorem State.wf_of_stores {s t : State w} (hdata : t.data = s.data) (hcode : t.code = s.code) (h : s.wf) : t.wf := by
  unfold State.wf State.codeSize
  rw [hdata, hcode]
  exact h

theorem memWrite_state_wf {s : State w} (h : s.wf) (i v : Word w) : (memWrite s i v).wf :=
  ⟨memWrite_wf h.1, by rw [State.codeSize, memWrite_code]; exact h.2⟩

theorem addCode_wf {s : State w} (h : s.wf) (e : CodeEntry w) : (addCode s e).wf :=
  ⟨by rw [addCode_data]; exact h.1, addCode_size h.2⟩

theorem resetAt_wf (w : Nat) : (State.resetAt w).wf := ⟨rfl, Nat.zero_le _⟩

theorem Update.apply_wf {s : State w} (h : s.wf) (u : Update w) : (u.apply s).wf := by
  cases u with
  | acc | pc | halt => exact h
  | store i v => exact State.wf_of_stores rfl rfl (memWrite_state_wf h i v)

theorem stepReportWith_wf {s : State w} (h : s.wf) (om : OpMap) : (stepReportWith om s).state.wf := by
  rcases stepReportWith_update_cases om s with ⟨f, hr⟩ | ⟨i, u, -, -, hr⟩ <;> rw [hr]
  · exact h
  · exact u.apply_wf h

/-- No step writes code (40_fetch_decode_dispatch.md R161). -/
theorem stepReportWith_code (om : OpMap) (s : State w) : (stepReportWith om s).state.code = s.code := by
  rcases stepReportWith_update_cases om s with ⟨f, hr⟩ | ⟨i, u, -, -, hr⟩ <;> rw [hr]
  · rfl
  · exact u.apply_code s

/-- What every item keeps, the loading pass keeps. -/
theorem load_induction {P : State w → Prop} {om : OpMap} (hcode : ∀ s m mode a, P s → P (addCode s (encodeForm om m mode a)))
    (hdata : ∀ s i v, P s → P (memWrite s i v)) : ∀ (items : List (Item w)) (s : State w), P s → P (load om items s)
  | [], _, h => h
  | .code m mode a :: rest, s, h => load_induction hcode hdata rest _ (hcode s m mode a h)
  | .data i v :: rest, s, h => load_induction hcode hdata rest _ (hdata s i v h)

theorem load_wf (om : OpMap) (items : List (Item w)) {s : State w} (h : s.wf) : (load om items s).wf :=
  load_induction (P := State.wf) (fun _ _ _ _ h => addCode_wf h _) (fun _ _ _ h => memWrite_state_wf h _ _) items s h

theorem perform_step (om : OpMap) (s : State w) : (perform om .step s).1 = (stepReportWith om s).state := rfl

theorem perform_clear (om : OpMap) (s : State w) : (perform om (.host .clear) s).1 = State.resetAt w := clear_eq_resetAt s

theorem perform_assemble (om : OpMap) (source : List (BitVec 8)) (s : State w) :
    (perform om (.host (.assemble source)) s).1 = load om (itemsOf source) s := assemble_state om source s

theorem perform_setData (om : OpMap) (i v : Word w) (s : State w) :
    (perform om (.host (.setData i v)) s).1 = memWrite s i v := rfl

theorem perform_addCode (om : OpMap) (e : CodeEntry w) (s : State w) :
    (perform om (.host (.addCode e)) s).1 = addCode s e := rfl

/-- A replacement in range. -/
theorem codeWrite_of_inCode {s : State w} {i : Word w} (h : inCode s i = true) (e : CodeEntry w) :
    codeWrite s i e = .ok { s with code := s.code.set i.toInt.toNat e } := if_pos h

/-- A replacement out of range. -/
theorem codeWrite_of_out {s : State w} {i : Word w} (h : ¬ inCode s i = true) (e : CodeEntry w) :
    codeWrite s i e = .error (.codeAccess i) := if_neg h

/-- A replacement leaves some code of the same size, and all else. -/
theorem perform_setCode (om : OpMap) (i : Word w) (e : CodeEntry w) (s : State w) :
    ∃ code, code.length = s.code.length ∧ (perform om (.host (.setCode i e)) s).1 = { s with code := code } := by
  simp only [perform, serve, hostSetCode]
  by_cases h : inCode s i = true
  · rw [codeWrite_of_inCode h]
    exact ⟨_, List.length_set, rfl⟩
  · rw [codeWrite_of_out h]
    exact ⟨_, rfl, rfl⟩

/-- The operations that write a store, and all others, which leave both stores and the run state. -/
theorem perform_cases (om : OpMap) (op : Operation w) (s : State w) :
    op = .step ∨ op = .host .clear ∨ (∃ source, op = .host (.assemble source)) ∨ (∃ i v, op = .host (.setData i v)) ∨
      (∃ e, op = .host (.addCode e)) ∨ (∃ i e, op = .host (.setCode i e)) ∨
      ((perform om op s).1.code = s.code ∧ (perform om op s).1.data = s.data ∧ (perform om op s).1.halted = s.halted ∧
        eventsOf om op s = []) := by
  cases op with
  | step => exact .inl rfl
  | host r =>
    cases r with
    | clear => exact .inr (.inl rfl)
    | assemble source => exact .inr (.inr (.inl ⟨source, rfl⟩))
    | setData i v => exact .inr (.inr (.inr (.inl ⟨i, v, rfl⟩)))
    | addCode e => exact .inr (.inr (.inr (.inr (.inl ⟨e, rfl⟩))))
    | setCode i e => exact .inr (.inr (.inr (.inr (.inr (.inl ⟨i, e, rfl⟩)))))
    | readAcc | readPc | readHalted | writeAcc | writePc | getData | getDataRange | getCode | getCodeRange | programSize
    | readChangedDataIndex => exact .inr (.inr (.inr (.inr (.inr (.inr ⟨rfl, rfl, rfl, rfl⟩)))))

/-- No operation but a step and `clear` touches the run state (10_state.md R32). -/
theorem perform_halted (om : OpMap) {op : Operation w} (s : State w) (hstep : op ≠ .step) (hclear : op ≠ .host .clear) :
    (perform om op s).1.halted = s.halted := by
  rcases perform_cases om op s with rfl | rfl | ⟨source, rfl⟩ | ⟨i, v, rfl⟩ | ⟨e, rfl⟩ | ⟨i, e, rfl⟩ | ⟨-, -, hhalted, -⟩
  · exact absurd rfl hstep
  · exact absurd rfl hclear
  · obtain ⟨-, -, hhalted⟩ := load_registers om (itemsOf source) s
    rwa [perform_assemble]
  · exact memWrite_halted s v i
  · exact addCode_halted s e
  · obtain ⟨code, -, heq⟩ := perform_setCode om i e s
    rw [heq]
  · exact hhalted

theorem perform_wf {s : State w} (h : s.wf) (om : OpMap) (op : Operation w) : (perform om op s).1.wf := by
  rcases perform_cases om op s with rfl | rfl | ⟨source, rfl⟩ | ⟨i, v, rfl⟩ | ⟨e, rfl⟩ | ⟨i, e, rfl⟩ | ⟨hcode, hdata, -⟩
  · exact stepReportWith_wf h om
  · rw [perform_clear]
    exact resetAt_wf w
  · rw [perform_assemble]
    exact load_wf om _ h
  · exact memWrite_state_wf h i v
  · exact addCode_wf h e
  · obtain ⟨code, hlength, heq⟩ := perform_setCode om i e s
    rw [heq]
    exact ⟨h.1, hlength.trans_le h.2⟩
  · exact State.wf_of_stores hdata hcode h

theorem performAll_wf (om : OpMap) : ∀ (ops : List (Operation w)) {s : State w}, s.wf → (performAll om ops s).wf
  | [], _, h => h
  | op :: ops, _, h => performAll_wf om ops (perform_wf h om op)

theorem addCode_codeSize_le (s : State w) (e : CodeEntry w) : s.codeSize ≤ (addCode s e).codeSize := by
  unfold addCode
  split
  · simp [State.codeSize]
  · exact le_rfl

theorem load_codeSize_le (om : OpMap) (items : List (Item w)) (s : State w) : s.codeSize ≤ (load om items s).codeSize :=
  load_induction (P := fun t => s.codeSize ≤ t.codeSize) (fun t _ _ _ h => h.trans (addCode_codeSize_le t _))
    (fun t i v h => by rwa [State.codeSize, State.codeSize, memWrite_code]) items s le_rfl

/-! ## The history of the data store -/

theorem slotAfter_append (k : Fin Config.dataSlots) : ∀ (es fs : List (DataEvent w)) (v : Word w),
    slotAfter k v (es ++ fs) = slotAfter k (slotAfter k v es) fs
  | [], _, _ => rfl
  | .cleared :: es, fs, _ => slotAfter_append k es fs 0
  | .wrote j x :: es, fs, v => slotAfter_append k es fs (if j = k then x else v)

/-- A write, performed or dropped, is its event. -/
theorem slot_memWrite_events {s : State w} (h : s.wf) (i v : Word w) (k : Fin Config.dataSlots) :
    (memWrite s i v).slot k = slotAfter k (s.slot k) (writeEvents i v) := by
  unfold writeEvents
  cases hi : dataIndex? i with
  | some j => exact slot_memWrite h.1 hi k
  | none => rw [memWrite_of_none hi]; rfl

/-- The loading pass is the events of its data lines. -/
theorem slot_load_events (om : OpMap) (k : Fin Config.dataSlots) : ∀ (items : List (Item w)) {s : State w}, s.wf →
    (load om items s).slot k = slotAfter k (s.slot k) (itemEvents items)
  | [], _, _ => rfl
  | .code m mode a :: rest, s, h => by
    have ih := slot_load_events om k rest (addCode_wf h (encodeForm om m mode a))
    rwa [State.slot, State.slot, addCode_data] at ih
  | .data i v :: rest, s, h => by
    have ih := slot_load_events om k rest (memWrite_state_wf h i v)
    rw [slot_memWrite_events h] at ih
    rw [itemEvents, slotAfter_append]
    exact ih

/-- An update that stores nothing leaves every slot and `changedDataIndex`. -/
theorem Update.apply_of_not_store {u : Update w} (hu : ∀ b v, u ≠ .store b v) (s : State w) :
    (∀ k, (u.apply s).slot k = s.slot k) ∧ (u.apply s).changedDataIndex = s.changedDataIndex := by
  cases u with
  | acc | pc | halt => exact ⟨fun _ => rfl, rfl⟩
  | store b v => exact absurd rfl (hu b v)

/-- A step is the events of its access list. -/
theorem slot_step_events (om : OpMap) {s : State w} (h : s.wf) (k : Fin Config.dataSlots) :
    (stepReportWith om s).state.slot k = slotAfter k (s.slot k) (eventsOf om .step s) := by
  unfold eventsOf
  cases hfd : fetchDecode om s with
  | error f => rw [stepReportWith_of_error hfd]; rfl
  | ok i =>
    simp only [stepReportWith_of_ok hfd, effectReport_eq_update]
    by_cases hpath : i.mnemonic.path = .store
    · rw [updateOf_store hpath]
      rcases accessEvents_of_store hpath s.acc s with ⟨b, hb, hevents⟩ | ⟨⟨f, hf⟩, hevents⟩
      · rw [hb, hevents]
        exact slot_memWrite_events h b s.acc k
      · rw [hf, hevents]
        rfl
    · rw [accessEvents_of_not_store hpath]
      cases hu : updateOf i s with
      | error f => rfl
      | ok u =>
        refine (u.apply_of_not_store (fun b v hstore => hpath ?_) s).1 k
        rw [(updateOf_eq_store (hstore ▸ hu)).1]
        rfl

theorem slot_perform_events (om : OpMap) (op : Operation w) {s : State w} (h : s.wf) (k : Fin Config.dataSlots) :
    (perform om op s).1.slot k = slotAfter k (s.slot k) (eventsOf om op s) := by
  rcases perform_cases om op s with rfl | rfl | ⟨source, rfl⟩ | ⟨i, v, rfl⟩ | ⟨e, rfl⟩ | ⟨i, e, rfl⟩ | ⟨-, hdata, -, hevents⟩
  · exact slot_step_events om h k
  · rfl
  · rw [perform_assemble]
    exact slot_load_events om k _ h
  · exact slot_memWrite_events h i v k
  · rw [perform_addCode, State.slot, addCode_data]
    rfl
  · obtain ⟨code, -, heq⟩ := perform_setCode om i e s
    rw [heq]
    rfl
  · rw [hevents, State.slot, hdata]
    rfl

theorem slot_performAll_history (om : OpMap) (k : Fin Config.dataSlots) : ∀ (ops : List (Operation w)) {s : State w}, s.wf →
    (performAll om ops s).slot k = slotAfter k (s.slot k) (history om ops s)
  | [], _, _ => rfl
  | op :: ops, s, h => by
    rw [performAll, slot_performAll_history om k ops (perform_wf h om op), history, slotAfter_append,
      slot_perform_events om op h]

/-! ## Two data stores that agree on the slots read -/

/-- A read of an index at whose slot two states agree. -/
theorem memRead_of_agree {s t : State w} {a : Word w} (h : ∀ k, NamesSlot a k → t.slot k = s.slot k) :
    memRead t a = memRead s a := by
  rcases memRead_cases s a with ⟨k, hk, hr⟩ | ⟨hn, hr⟩ <;> rw [hr]
  · rw [memRead_of_index hk, h k (dataIndex?_eq_some.1 hk)]
  · exact memRead_of_none hn

/-- A pointer's access list, and what is read through it, in two states that agree on the reads listed. -/
theorem accessesThrough_of_agree {s t : State w} {mk : Word w → Access w} {a : Word w}
    (h : ∀ j, Access.read j ∈ accessesThrough mk a s → memRead t j = memRead s j) :
    memRead t a = memRead s a ∧ accessesThrough mk a t = accessesThrough mk a s := by
  have ha : memRead t a = memRead s a := h a (by unfold accessesThrough; cases memRead s a <;> simp)
  exact ⟨ha, by unfold accessesThrough; rw [ha]⟩

/-- On the value path, two states that agree on the reads listed make the same accesses and obtain the same operand. -/
theorem operand_of_agree {i : Instr w} {s t : State w} (hpath : i.mnemonic.path = .value)
    (h : ∀ j, Access.read j ∈ accesses i s → memRead t j = memRead s j) :
    accesses i t = accesses i s ∧ operand i.mode i.arg t = operand i.mode i.arg s := by
  unfold accesses at *
  rw [hpath] at *
  cases hm : i.mode with
  | direct => exact ⟨rfl, h i.arg (by simp [hm])⟩
  | immediate | special => exact ⟨rfl, rfl⟩
  | indirect =>
    simp only [hm] at h ⊢
    obtain ⟨ha, hlist⟩ := accessesThrough_of_agree h
    refine ⟨hlist, ?_⟩
    unfold operand
    rw [ha]
    cases hr : memRead s i.arg with
    | error f => rfl
    | ok x => exact h x (by simp [accessesThrough, hr])

/-- On the store path they obtain the same store index. -/
theorem storeAddr_of_agree {i : Instr w} {s t : State w} (hpath : i.mnemonic.path = .store)
    (h : ∀ j, Access.read j ∈ accesses i s → memRead t j = memRead s j) :
    accesses i t = accesses i s ∧ storeAddr i.mode i.arg t = storeAddr i.mode i.arg s := by
  unfold accesses at *
  rw [hpath] at *
  cases hm : i.mode with
  | direct | immediate | special => exact ⟨rfl, rfl⟩
  | indirect =>
    simp only [hm] at h ⊢
    exact (accessesThrough_of_agree h).symm

/-- A jump that is taken goes to the same target in both. -/
theorem jumpTarget_of_agree {i : Instr w} {s t : State w} (hpath : i.mnemonic.path = .target) (hacc : t.acc = s.acc)
    (ht : ¬ (i.mnemonic = .jmpz ∧ s.acc ≠ 0)) (h : ∀ j, Access.read j ∈ accesses i s → memRead t j = memRead s j)
    (pc : Word w) :
    accesses i t = accesses i s ∧ jumpTarget i.mode i.arg pc t = jumpTarget i.mode i.arg pc s := by
  have hlist : accesses i t = accesses i s := by
    rw [accesses, accesses, hpath, hacc]
    cases i.mode <;> rfl
  have hread : i.mode = .indirect ∨ i.mode = .special → memRead t i.arg = memRead s i.arg := by
    refine fun hm => h i.arg ?_
    rw [accesses, hpath]
    rcases hm with hm | hm <;> simp only [hm, if_neg ht] <;> exact List.mem_singleton_self _
  refine ⟨hlist, ?_⟩
  cases hm : i.mode with
  | direct | immediate => rfl
  | special => exact hread (.inr hm)
  | indirect =>
    unfold jumpTarget
    rw [hread (.inl hm)]

/-- Two states that agree on `acc`, `pc` and the reads that an instruction lists in one of them: it makes the same accesses
and the same update in both. -/
theorem updateOf_of_agree {i : Instr w} {s t : State w} (hacc : t.acc = s.acc) (hpc : t.pc = s.pc)
    (h : ∀ j, Access.read j ∈ accesses i s → memRead t j = memRead s j) :
    accesses i t = accesses i s ∧ updateOf i t = updateOf i s := by
  cases hpath : i.mnemonic.path with
  | none => exact ⟨by rw [accesses, accesses, hpath], by rw [updateOf, updateOf, hpath, hacc, hpc]⟩
  | value =>
    obtain ⟨hlist, hoperand⟩ := operand_of_agree hpath h
    exact ⟨hlist, by rw [updateOf_value hpath, updateOf_value hpath, hoperand, hacc]⟩
  | store =>
    obtain ⟨hlist, hindex⟩ := storeAddr_of_agree hpath h
    exact ⟨hlist, by rw [updateOf_store hpath, updateOf_store hpath, hindex, hacc]⟩
  | target =>
    by_cases ht : i.mnemonic = .jmpz ∧ s.acc ≠ 0
    · have ht' : i.mnemonic = .jmpz ∧ t.acc ≠ 0 := hacc.symm ▸ ht
      exact ⟨by rw [accesses_untaken ht, accesses_untaken ht'], by rw [updateOf_untaken ht, updateOf_untaken ht', hpc]⟩
    · obtain ⟨hlist, htarget⟩ := jumpTarget_of_agree hpath hacc ht h s.pc
      exact ⟨hlist, by rw [updateOf_taken hpath ht, updateOf_taken hpath (hacc.symm ▸ ht), hpc, htarget]⟩

/-- An update writes the same registers whatever the data store holds. -/
theorem Update.apply_setData (u : Update w) (s : State w) (d : Memory w) :
    { u.apply { s with data := d } with data := [] } = { u.apply s with data := [] } := by
  cases u with
  | acc | pc | halt => rfl
  | store i v =>
    simp only [Update.apply, memWrite]
    cases dataIndex? i <;> rfl

/-- An update writes a slot in both of two states, with the same value, or in neither. -/
theorem Update.slot_apply_cases {s t : State w} (hs : s.data.wf = true) (ht : t.data.wf = true) (u : Update w)
    (k : Fin Config.dataSlots) :
    (u.apply t).slot k = (u.apply s).slot k ∨ ((u.apply t).slot k = t.slot k ∧ (u.apply s).slot k = s.slot k) := by
  cases u with
  | acc | pc | halt => exact .inr ⟨rfl, rfl⟩
  | store i v =>
    simp only [Update.apply, slot_advance]
    by_cases hi : dataIndex? i = some k
    · exact .inl (by rw [slot_memWrite ht hi, slot_memWrite hs hi, if_pos rfl, if_pos rfl])
    · exact .inr ⟨slot_memWrite_other hi, slot_memWrite_other hi⟩

end Sys2Proof.Machine

/-! ## The obligations of reset, the invariant and the history -/

namespace Sys2Proof.Proofs

open Sys2Proof.Machine

/-- Settles O25: a step leaves the state of its report, which is the state before with a fault entry or an update. -/
theorem stepKeepsTheInvariant : Obligations.StepKeepsTheInvariant := by
  unfold Obligations.StepKeepsTheInvariant
  have general : ∀ (w : Nat) (om : OpMap) (s t : State w), s.wf → stepWith om s = .next t → t.wf := by
    intro w om s t hs ht
    rw [stepWith_eq] at ht
    exact Host.Outcome.next.inj ht ▸ stepReportWith_wf hs om
  exact ⟨general, fun s t hs ht => general _ _ s t hs ((step_eq_stepWith s).symm.trans ht)⟩

/-- Settles O26, by induction on the operations. -/
theorem everyOperationKeepsTheInvariant : Obligations.EveryOperationKeepsTheInvariant := by
  unfold Obligations.EveryOperationKeepsTheInvariant
  exact fun w om ops s => performAll_wf om ops

/-- Settles O49, by induction on the operations, the invariant carried along. -/
theorem slotHoldsLatestWrite : Obligations.SlotHoldsLatestWrite := by
  unfold Obligations.SlotHoldsLatestWrite
  exact fun w om ops s hs k => slot_performAll_history om k ops hs

/-- Settles O57: the loader stores entries of mnemonics only, and the first two refusals of a step speak of its entry. -/
theorem assembledCodeNeverFailsParity : Obligations.AssembledCodeNeverFailsParity := by
  unfold Obligations.AssembledCodeNeverFailsParity
  intro w om hom
  refine ⟨fun op s hs hop => ?_, fun s hs f hf => ?_, nofun⟩
  · rcases perform_cases om op s with rfl | rfl | ⟨source, rfl⟩ | ⟨i, v, rfl⟩ | ⟨e, rfl⟩ | ⟨i, e, rfl⟩ | ⟨hcode, -⟩
    · rwa [perform_step, State.codeAssigned, stepReportWith_code]
    · nofun
    · rw [perform_assemble]
      intro e he
      rcases mem_load_code he with he | ⟨m, mode, a, rfl⟩
      · exact hs e he
      · simp [assignedEntry, encodeForm, parityOk_encodeOpcode, baseOpcode_encodeOpcode, mnemonicOf_code hom]
    · rwa [perform_setData, State.codeAssigned, memWrite_code]
    · cases hop
    · cases hop
    · rwa [State.codeAssigned, hcode]
  · rcases (faultPriority w om hom s f).1 hf with ⟨rfl, -⟩ | ⟨e, he, hchecks⟩
    · exact ⟨nofun, nofun⟩
    obtain ⟨k, -, hk⟩ := he
    obtain ⟨heven, hsome⟩ := Bool.and_eq_true_iff.1 (hs e (List.mem_of_getElem? hk))
    rcases hchecks with ⟨-, hodd⟩ | ⟨-, ⟨-, hnone⟩ | ⟨m, -, ⟨rfl, -⟩ | ⟨i, -, ⟨bad, -, rfl⟩ | ⟨-, -, -, rfl⟩⟩⟩⟩
    · cases heven.symm.trans (parityOk_eq_false_iff.2 hodd)
    · simp [mnemonicOf_eq_none.2 hnone] at hsome
    · exact ⟨nofun, nofun⟩
    · exact ⟨nofun, nofun⟩
    · exact ⟨nofun, nofun⟩

/-- Settles O17: a step only sets HALTED, with the signal; every other operation but `clear` leaves it. -/
theorem onlyClearLeavesHalted : Obligations.OnlyClearLeavesHalted := by
  unfold Obligations.OnlyClearLeavesHalted
  intro w om op s
  by_cases hstep : op = .step
  · subst hstep
    rw [perform_step, stepReportWith_halted]
    exact ⟨fun h => by simp [h], fun h => by simp [h]⟩
  by_cases hclear : op = .host .clear
  · subst hclear
    exact ⟨fun _ _ => rfl, fun _ h => by cases h⟩
  rw [perform_halted om s hstep hclear]
  exact ⟨fun h h' => by simp [h] at h', fun h h' => by simp [h] at h'⟩

/-- Settles O18: the one update that stores is STO's. -/
theorem stepChangesAtMostOneSlot : Obligations.StepChangesAtMostOneSlot := by
  unfold Obligations.StepChangesAtMostOneSlot
  intro w om s hs
  refine ⟨stepReportWith_code om s, ?_⟩
  rcases stepReportWith_update_cases om s with ⟨f, hr⟩ | ⟨i, u, hfd, hu, hr⟩ <;> rw [hr]
  · exact .inl ⟨fun _ => rfl, rfl⟩
  · by_cases hstore : ∃ b v, u = .store b v
    · obtain ⟨b, v, rfl⟩ := hstore
      obtain ⟨hsto, hb, rfl⟩ := updateOf_eq_store hu
      cases hk : dataIndex? b with
      | none =>
        rw [Update.apply, memWrite_of_none hk]
        exact .inl ⟨fun _ => rfl, rfl⟩
      | some k =>
        refine .inr ⟨i, b, k, hfd, hsto, hb, dataIndex?_eq_some.1 hk, ?_, fun j => ?_⟩
        · simp [Update.apply, memWrite_of_index hk]
        · rw [Update.apply, slot_advance, slot_memWrite hs.1 hk]
          simp only [eq_comm]
    · exact .inl (u.apply_of_not_store (fun b v h => hstore ⟨b, v, h⟩) s)

/-- Settles O48, one operation at a time. -/
theorem codeSizeChanges : Obligations.CodeSizeChanges := by
  unfold Obligations.CodeSizeChanges
  intro w om op s
  have same : (perform om op s).1.code = s.code → (perform om op s).1.codeSize = s.codeSize := congrArg List.length
  rcases perform_cases om op s with rfl | rfl | ⟨source, rfl⟩ | ⟨i, v, rfl⟩ | ⟨e, rfl⟩ | ⟨i, e, rfl⟩ | ⟨hcode, -⟩
  · have hcode := stepReportWith_code om s
    have := same hcode
    exact ⟨by omega, by omega, fun _ _ _ _ => hcode⟩
  · exact ⟨fun h => absurd h (Nat.not_lt_zero _), fun _ => rfl, fun _ _ h => absurd rfl h⟩
  · have := load_codeSize_le om (itemsOf source) s
    rw [perform_assemble]
    exact ⟨fun _ => .inr ⟨source, rfl⟩, by omega, fun _ h => absurd rfl (h source)⟩
  · have hcode := memWrite_code s v i
    have := same hcode
    exact ⟨by omega, by omega, fun _ _ _ _ => hcode⟩
  · have := addCode_codeSize_le s e
    rw [perform_addCode]
    exact ⟨fun _ => .inl ⟨e, rfl⟩, by omega, fun h => absurd rfl (h e)⟩
  · obtain ⟨code, hlength, heq⟩ := perform_setCode om i e s
    rw [heq]
    have : ({ s with code := code } : State w).codeSize = s.codeSize := hlength
    exact ⟨by omega, by omega, fun _ _ _ h => absurd rfl (h i e)⟩
  · have := same hcode
    exact ⟨by omega, by omega, fun _ _ _ _ => hcode⟩

/-- Settles O21: the same update is made in both states. -/
theorem stepReadsOnlyListedSlots : Obligations.StepReadsOnlyListedSlots := by
  unfold Obligations.StepReadsOnlyListedSlots
  intro w i s d hs hd hagree
  obtain ⟨haccesses, hupdate⟩ := updateOf_of_agree (i := i) (s := s) (t := { s with data := d }) rfl rfl
    fun j hj => memRead_of_agree fun k => hagree j k hj
  rw [effectReport_eq_update, effectReport_eq_update, hupdate]
  refine ⟨haccesses, ?_⟩
  cases updateOf i s with
  | error f => exact ⟨rfl, rfl, rfl, fun k => .inr ⟨rfl, rfl⟩⟩
  | ok u => exact ⟨rfl, rfl, u.apply_setData s d, u.slot_apply_cases hs hd⟩

/-- Settles O23: `clear` writes every field. -/
theorem clearGivesTheResetState : Obligations.ClearGivesTheResetState := by
  unfold Obligations.ClearGivesTheResetState
  exact ⟨fun w om s => ⟨rfl, rfl, rfl, rfl, fun _ => rfl, rfl, rfl⟩, fun _ _ => rfl⟩

/-- Settles O24: both stores are empty. -/
theorem resetMeetsTheInvariant : Obligations.ResetMeetsTheInvariant := by
  unfold Obligations.ResetMeetsTheInvariant
  exact ⟨resetAt_wf, resetAt_wf _⟩

end Sys2Proof.Proofs

/-! ## What an execution leaves, by its dispatch path -/

namespace Sys2Proof.Machine

variable {w : Nat}

/-- Zero is the word whose signed value is 0. -/
theorem toInt_eq_zero_iff {x : Word w} : x.toInt = 0 ↔ x = 0 :=
  ⟨fun h => word_ext (h.trans BitVec.toInt_zero.symm), fun h => h ▸ BitVec.toInt_zero⟩

theorem truthWord_isZero (x : Word w) : truthWord (w := w) (isZero x) = if x.toInt = 0 then 1 else 0 := by
  have h : isZero x = true ↔ x.toInt = 0 := beq_iff_eq.trans toInt_eq_zero_iff.symm
  simp [truthWord, h]

theorem truthWord_isNegative (x : Word w) : truthWord (w := w) (isNegative x) = if x.toInt < 0 then 1 else 0 := by
  simp [truthWord, isNegative]

theorem truthWord_both (x y : Word w) :
    truthWord (w := w) (isNonZero x && isNonZero y) = if x.toInt ≠ 0 ∧ y.toInt ≠ 0 then 1 else 0 := by
  have h : ∀ z : Word w, isNonZero z = true ↔ z.toInt ≠ 0 := fun _ => bne_iff_ne.trans toInt_eq_zero_iff.not.symm
  simp [truthWord, h]

/-- A completed execution leaves its update. -/
theorem execAt_of_updateOf {i : Instr w} {s : State w} {u : Update w} (h : updateOf i s = .ok u) :
    execAt i s = .next (u.apply s) := by
  rw [execAt_eq, effect_of_updateOf_ok h, concludeState_ok]

/-- An execution with no update is the fault's entry. -/
theorem faultsAt_of_updateOf {i : Instr w} {s : State w} {f : Fault w} (h : updateOf i s = .error f) : FaultsAt i s f := by
  have he : effect i s = .error f := effect_error_iff.2 h
  exact ⟨by rw [effectReport, he]; rfl, by rw [execAt_eq, he]; rfl⟩

/-- At the default width the two ways to say that an execution faults are one. -/
theorem faultsWith_of_faultsAt {i : Instr} {s : State} {f : Fault} (h : FaultsAt i s f) : FaultsWith i s f :=
  ⟨h.1, (exec_eq_execAt i s).trans h.2⟩

section Value

variable {i : Instr w} {s : State w} {x : Word w} (hpath : i.mnemonic.path = .value)

include hpath

theorem updateOf_of_operandIs (hx : OperandIs i.mode i.arg s x) :
    updateOf i s = (valueResult i.mnemonic s.acc x).map .acc := by
  rw [updateOf_value hpath, operand_ok_iff.2 hx]
  rfl

/-- The value path with its operand obtained: the result goes into `acc`, and `pc` is incremented. -/
theorem execAt_value {v : Word w} (hx : OperandIs i.mode i.arg s x) (hv : valueResult i.mnemonic s.acc x = .ok v) :
    execAt i s = .next (writeAcc s v) :=
  execAt_of_updateOf (u := .acc v) (by rw [updateOf_of_operandIs hpath hx, hv]; rfl)

/-- The value path with an operand that has no result. -/
theorem faultsAt_value {f : Fault w} (hx : OperandIs i.mode i.arg s x) (hv : valueResult i.mnemonic s.acc x = .error f) :
    FaultsAt i s f :=
  faultsAt_of_updateOf (by rw [updateOf_of_operandIs hpath hx, hv]; rfl)

/-- The value path with an index out of range. -/
theorem faultsAt_operand {bad : Word w} (hbad : OperandFaults i.mode i.arg s bad) : FaultsAt i s (.dataAccess bad) :=
  faultsAt_of_updateOf (by rw [updateOf_value hpath, operand_of_faults hbad]; rfl)

end Value

section Target

variable {i : Instr w} {s : State w} (htaken : i.mnemonic = .jump ∨ (i.mnemonic = .jmpz ∧ s.acc = 0))

include htaken

theorem updateOf_jump : updateOf i s = (jumpTarget i.mode i.arg s.pc s).map .pc := by
  apply updateOf_taken
  · rcases htaken with hm | ⟨hm, -⟩ <;> rw [hm] <;> rfl
  · rcases htaken with hm | ⟨-, hacc⟩
    · simp [hm]
    · simp [hacc]

/-- A jump that is taken sets `pc` to the target. -/
theorem execAt_jump {t : Word w} (ht : TargetIs i.mode i.arg s t) : execAt i s = .next { s with pc := t } :=
  execAt_of_updateOf (u := .pc t) (by rw [updateOf_jump htaken, jumpTarget_ok_iff.2 ht]; rfl)

/-- A jump that is taken through a slot out of range. -/
theorem faultsAt_jump (hmode : i.mode = .indirect ∨ i.mode = .special) (hn : NamesNoSlot i.arg) :
    FaultsAt i s (.dataAccess i.arg) := by
  refine faultsAt_of_updateOf ?_
  rw [updateOf_jump htaken, map_eq_error_iff]
  rcases hmode with hm | hm <;> rw [hm]
  · exact jumpTarget_indirect_none (dataIndex?_eq_none.2 hn)
  · exact memRead_of_none (dataIndex?_eq_none.2 hn)

end Target

/-- A JMPZ that is not taken increments `pc`. -/
theorem execAt_untaken {i : Instr w} {s : State w} (hm : i.mnemonic = .jmpz) (hacc : s.acc ≠ 0) :
    execAt i s = .next (advance s) :=
  execAt_of_updateOf (updateOf_untaken ⟨hm, hacc⟩)

section Store

variable {i : Instr w} {s : State w} {b : Word w} (hm : i.mnemonic = .sto)

include hm

/-- STO with its store index: the write, performed or dropped, and the increment. -/
theorem execAt_store (hb : storeAddr i.mode i.arg s = .ok b) : execAt i s = .next (advance (memWrite s b s.acc)) :=
  execAt_of_updateOf (u := .store b s.acc) (by rw [updateOf_store (by rw [hm]; rfl), hb]; rfl)

/-- STO to a slot. -/
theorem execAt_store_slot {k : Fin Config.dataSlots} (hs : s.data.wf = true) (hb : StoreIndexIs i.mode i.arg s b)
    (hk : NamesSlot b k) :
    ∃ t, execAt i s = .next t ∧ t.acc = s.acc ∧ t.pc = wrap (s.pc.toInt + 1) ∧ t.halted = s.halted ∧ t.code = s.code ∧
      t.changedDataIndex = some k ∧ ∀ j, t.slot j = if j = k then s.acc else s.slot j := by
  have hindex : dataIndex? b = some k := dataIndex?_eq_some.2 hk
  refine ⟨_, execAt_store hm (storeAddr_ok_iff.2 hb), by simp, by simp [nextPc], by simp, by simp, ?_, fun j => ?_⟩
  · simp [memWrite_of_index hindex]
  · rw [slot_advance, slot_memWrite hs hindex]
    simp only [eq_comm]

/-- STO to no slot. -/
theorem execAt_store_dropped (hb : StoreIndexIs i.mode i.arg s b) (hn : NamesNoSlot b) :
    execAt i s = .next { s with pc := wrap (s.pc.toInt + 1) } := by
  rw [execAt_store hm (storeAddr_ok_iff.2 hb), memWrite_of_none (dataIndex?_eq_none.2 hn)]
  rfl

/-- STO through a slot out of range. -/
theorem faultsAt_store (hmode : i.mode = .indirect) (hn : NamesNoSlot i.arg) : FaultsAt i s (.dataAccess i.arg) := by
  refine faultsAt_of_updateOf ?_
  rw [updateOf_store (by rw [hm]; rfl), hmode, storeAddr_indirect, memRead_of_none (dataIndex?_eq_none.2 hn)]
  rfl

end Store

/-! ## The forms of one mnemonic -/

/-- A list of forms, each with its mode, is of one mnemonic and one argument. -/
def FormsOf (m : Mnemonic) (a : Word w) (forms : List (AddrMode × Instr w)) : Prop :=
  ∀ p ∈ forms, p.2.mnemonic = m ∧ p.2.mode = p.1 ∧ p.2.arg = a

section Forms

variable {m : Mnemonic} {a x t : Word} {s : State} {forms : List (AddrMode × Instr)} {p : AddrMode × Instr}

theorem FormsOf.exec_value (h : FormsOf m a forms) (hm : m.path = .value) (hp : p ∈ forms) {v : Word}
    (hx : OperandIs p.1 a s x) (hv : valueResult m s.acc x = .ok v) : exec p.2 s = .next (writeAcc s v) := by
  obtain ⟨rfl, hmode, rfl⟩ := h p hp
  rw [exec_eq_execAt, execAt_value hm (hmode ▸ hx) hv]

theorem FormsOf.faults_value (h : FormsOf m a forms) (hm : m.path = .value) (hp : p ∈ forms) {f : Fault}
    (hx : OperandIs p.1 a s x) (hv : valueResult m s.acc x = .error f) : FaultsWith p.2 s f := by
  obtain ⟨rfl, hmode, rfl⟩ := h p hp
  exact faultsWith_of_faultsAt (faultsAt_value hm (hmode ▸ hx) hv)

theorem FormsOf.faults_operand (h : FormsOf m a forms) (hm : m.path = .value) (hp : p ∈ forms) {bad : Word}
    (hbad : OperandFaults p.1 a s bad) : FaultsWith p.2 s (.dataAccess bad) := by
  obtain ⟨rfl, hmode, rfl⟩ := h p hp
  exact faultsWith_of_faultsAt (faultsAt_operand hm (hmode ▸ hbad))

/-- A mnemonic of the value path that has a result for its operand. -/
theorem FormsOf.value_result (h : FormsOf m a forms) (hm : m.path = .value) (hp : p ∈ forms) {v bad : Word}
    (hv : valueResult m s.acc x = .ok v) :
    (OperandIs p.1 a s x → exec p.2 s = .next (writeAcc s v)) ∧
      (OperandFaults p.1 a s bad → FaultsWith p.2 s (.dataAccess bad)) :=
  ⟨fun hx => h.exec_value hm hp hx hv, h.faults_operand hm hp⟩

theorem FormsOf.exec_jump (h : FormsOf m a forms) (hp : p ∈ forms) (htaken : m = .jump ∨ (m = .jmpz ∧ s.acc = 0))
    (ht : TargetIs p.1 a s t) : exec p.2 s = .next { s with pc := t } := by
  obtain ⟨rfl, hmode, rfl⟩ := h p hp
  rw [exec_eq_execAt, execAt_jump htaken (hmode ▸ ht)]

theorem FormsOf.faults_jump (h : FormsOf m a forms) (hp : p ∈ forms) (htaken : m = .jump ∨ (m = .jmpz ∧ s.acc = 0))
    (hmode' : p.1 = .indirect ∨ p.1 = .special) (hn : NamesNoSlot a) : FaultsWith p.2 s (.dataAccess a) := by
  obtain ⟨rfl, hmode, rfl⟩ := h p hp
  exact faultsWith_of_faultsAt (faultsAt_jump htaken (hmode ▸ hmode') hn)

end Forms

/-! ## Frames -/

/-- An execution that is done leaves the update it made. -/
theorem update_of_done {i : Instr w} {s t : State w} (hdone : (effectReport i s).result = .done)
    (ht : execAt i s = .next t) : ∃ u, updateOf i s = .ok u ∧ t = u.apply s := by
  cases hu : updateOf i s with
  | error f => simp [(faultsAt_of_updateOf hu).1, faultReport] at hdone
  | ok u => exact ⟨u, rfl, Host.Outcome.next.inj (ht.symm.trans (execAt_of_updateOf hu))⟩

/-- An update of no STO and no HALT leaves everything but `acc` and `pc`. -/
theorem Update.apply_frame {i : Instr w} {s : State w} {u : Update w} (hsto : i.mnemonic ≠ .sto) (hhalt : i.mnemonic ≠ .halt)
    (hu : updateOf i s = .ok u) :
    (∀ k, (u.apply s).slot k = s.slot k) ∧ (u.apply s).data = s.data ∧ (u.apply s).halted = s.halted ∧
      (u.apply s).code = s.code ∧ (u.apply s).changedDataIndex = s.changedDataIndex := by
  cases u with
  | acc | pc => exact ⟨fun _ => rfl, rfl, rfl, rfl, rfl⟩
  | store b v => exact absurd (updateOf_eq_store hu).1 hsto
  | halt => exact absurd (beq_iff_eq.1 (isHalt_of_updateOf_halt hu)) hhalt

/-- The update of NOP, JUMP and JMPZ is a new `pc`. -/
theorem updateOf_control {i : Instr w} {s : State w} {u : Update w} (h : i.mnemonic = .nop ∨ i.mnemonic.path = .target)
    (hu : updateOf i s = .ok u) : ∃ p, u = .pc p := by
  rcases h with hm | hpath
  · rw [updateOf, hm] at hu
    exact ⟨_, (Except.ok.inj hu).symm⟩
  · rw [updateOf, hpath] at hu
    simp only at hu
    split at hu
    · exact ⟨_, (Except.ok.inj hu).symm⟩
    · obtain ⟨p, -, rfl⟩ := map_eq_ok_iff.1 hu
      exact ⟨p, rfl⟩

end Sys2Proof.Machine

/-! ## The obligations of the instructions -/

namespace Sys2Proof.Proofs

open Sys2Proof.Machine

/-- Settles O27: the effect of NOP looks at no argument. -/
theorem nopResult : Obligations.NopResult := by
  unfold Obligations.NopResult
  exact fun a s => ⟨rfl, rfl⟩

/-- Settles O28: HALT writes `halted`, which the fetch does not read. -/
theorem haltResult : Obligations.HaltResult := by
  unfold Obligations.HaltResult
  exact fun a s => ⟨rfl, rfl, fun om h => (fetchDecode_congr rfl rfl om).trans h⟩

/-- Settles O37: NOT writes the truth value of a test of `acc`. -/
theorem notResult : Obligations.NotResult := by
  unfold Obligations.NotResult
  intro a s
  have hexec : exec (.not a) s = .next (writeAcc s (if s.acc.toInt = 0 then 1 else 0)) := by
    rw [← truthWord_isZero]
    rfl
  refine ⟨fun h => ?_, fun h => ?_, rfl⟩ <;> rw [hexec]
  · rw [if_pos h]
    rfl
  · rw [if_neg h]
    rfl

/-- Settles O29: ADD is on the value path, with the sum as its result. -/
theorem addResult : Obligations.AddResult := by
  unfold Obligations.AddResult
  intro a x bad s p hp
  exact FormsOf.value_result (m := .add) (by simp [FormsOf, Instr.mnemonic, Instr.mode, Instr.arg]) rfl hp rfl

/-- Settles O30: SUB is on the value path, with the difference as its result. -/
theorem subResult : Obligations.SubResult := by
  unfold Obligations.SubResult
  intro a x bad s p hp
  exact FormsOf.value_result (m := .sub) (by simp [FormsOf, Instr.mnemonic, Instr.mode, Instr.arg]) rfl hp rfl

/-- Settles O31: MUL is on the value path, with the product as its result. -/
theorem mulResult : Obligations.MulResult := by
  unfold Obligations.MulResult
  intro a x bad s p hp
  exact FormsOf.value_result (m := .mul) (by simp [FormsOf, Instr.mnemonic, Instr.mode, Instr.arg]) rfl hp rfl

/-- Settles O32: DIV is on the value path, with the quotient as its result, or none for an operand of 0. -/
theorem divResult : Obligations.DivResult := by
  unfold Obligations.DivResult
  intro a x bad s p hp
  have forms : FormsOf .div a [(.direct, .divDirect a), (.immediate, .divImmediate a), (.indirect, .divIndirect a)] := by
    simp [FormsOf, Instr.mnemonic, Instr.mode, Instr.arg]
  exact ⟨fun hx hne => forms.exec_value rfl hp hx (if_neg hne), fun hx hzero => forms.faults_value rfl hp hx (if_pos hzero),
    forms.faults_operand rfl hp⟩

/-- Settles O35: LOD is on the value path, with its operand as its result. -/
theorem lodResult : Obligations.LodResult := by
  unfold Obligations.LodResult
  intro a x bad s p hp
  exact FormsOf.value_result (m := .lod) (by simp [FormsOf, Instr.mnemonic, Instr.mode, Instr.arg]) rfl hp rfl

/-- Settles O38: AND is on the value path, with the truth value of both inputs as its result. -/
theorem andResult : Obligations.AndResult := by
  unfold Obligations.AndResult
  intro a x bad s p hp
  have forms : FormsOf .and a [(.direct, .andDirect a), (.immediate, .andImmediate a)] := by
    simp [FormsOf, Instr.mnemonic, Instr.mode, Instr.arg]
  have hv : valueResult .and s.acc x = .ok (if s.acc.toInt ≠ 0 ∧ x.toInt ≠ 0 then 1 else 0) := by
    rw [← truthWord_both]
    rfl
  refine ⟨fun hx hacc hne => ?_, fun hx hzero => ?_, forms.faults_operand rfl hp⟩ <;> rw [forms.exec_value rfl hp hx hv]
  · rw [if_pos ⟨hacc, hne⟩]
    rfl
  · rw [if_neg (by tauto)]
    rfl

/-- Settles O39: CMPL and CMPZ are on the value path, direct, with a test of the operand as their result. -/
theorem compareResult : Obligations.CompareResult := by
  unfold Obligations.CompareResult
  refine fun a s => ⟨fun k hk => ?_, fun hn => ?_⟩
  · have hx : OperandIs .direct a s (s.slot k) := ⟨k, hk, rfl⟩
    rw [exec_eq_execAt, exec_eq_execAt, ← truthWord_isNegative, ← truthWord_isZero]
    exact ⟨execAt_value (i := .cmpl a) rfl hx rfl, execAt_value (i := .cmpz a) rfl hx rfl⟩
  · have hbad : OperandFaults .direct a s a := ⟨hn, rfl⟩
    exact ⟨faultsWith_of_faultsAt (faultsAt_operand (i := .cmpl a) rfl hbad),
      faultsWith_of_faultsAt (faultsAt_operand (i := .cmpz a) rfl hbad)⟩

/-- Settles O33: JUMP is always taken. -/
theorem jumpResult : Obligations.JumpResult := by
  unfold Obligations.JumpResult
  intro a t s p hp
  have forms : FormsOf .jump a [(.direct, .jumpDirect a), (.immediate, .jumpImmediate a), (.indirect, .jumpIndirect a),
      (.special, .jumpSpecial a)] := by
    simp [FormsOf, Instr.mnemonic, Instr.mode, Instr.arg]
  exact ⟨forms.exec_jump hp (.inl rfl), forms.faults_jump hp (.inl rfl)⟩

/-- Settles O34: JMPZ is taken when `acc` is 0. -/
theorem jmpzResult : Obligations.JmpzResult := by
  unfold Obligations.JmpzResult
  intro a t s p hp
  have forms : FormsOf .jmpz a [(.direct, .jmpzDirect a), (.immediate, .jmpzImmediate a), (.indirect, .jmpzIndirect a),
      (.special, .jmpzSpecial a)] := by
    simp [FormsOf, Instr.mnemonic, Instr.mode, Instr.arg]
  refine ⟨fun hacc => forms.exec_jump hp (.inr ⟨rfl, hacc⟩), fun hacc => ?_,
    fun hacc => forms.faults_jump hp (.inr ⟨rfl, hacc⟩)⟩
  rw [exec_eq_execAt, execAt_untaken (forms p hp).1 hacc]
  rfl

/-- The two forms of STO. -/
theorem formsOf_sto (a : Word) : FormsOf .sto a [(.direct, .stoDirect a), (.indirect, .stoIndirect a)] := by
  simp [FormsOf, Instr.mnemonic, Instr.mode, Instr.arg]

/-- Settles O36: STO is a write at its store index, performed or dropped, unless the pointer read faults. -/
theorem stoResult : Obligations.StoResult := by
  unfold Obligations.StoResult
  intro a i s hs p hp
  obtain ⟨hm, hmode, harg⟩ := formsOf_sto a p hp
  rw [exec_eq_execAt, ← hmode, ← harg]
  exact ⟨fun k hi hk => execAt_store_slot hm hs hi hk, execAt_store_dropped hm,
    fun hmode hn => faultsWith_of_faultsAt (faultsAt_store hm hmode hn)⟩

/-- Settles O59: the dispatch path of each mnemonic and, on the value path, its result. -/
theorem resultsAtEveryWidth : Obligations.ResultsAtEveryWidth := by
  unfold Obligations.ResultsAtEveryWidth
  intro w i s hs advanced
  have value : ∀ {x v : Word w}, OperandIs i.mode i.arg s x → ∀ m, m.path = .value → valueResult m s.acc x = .ok v →
      i.mnemonic = m → execAt i s = advanced v := by
    rintro x v hx m hpath hv rfl
    exact execAt_value hpath hx hv
  refine ⟨fun hm => ?_, fun hm => ?_, fun hm => ?_,
    fun x hx => ⟨?_, ?_, ?_, fun hm hne => ?_, fun hm hzero => ?_, ?_, ?_, ?_, ?_⟩,
    fun bad hbad hpath => faultsAt_operand hpath hbad, fun t ht htaken => execAt_jump htaken ht,
    execAt_untaken, faultsAt_jump, fun hm b hb => ⟨fun k => execAt_store_slot hm hs hb, execAt_store_dropped hm hb⟩,
    faultsAt_store⟩
  · exact execAt_of_updateOf (u := .pc (nextPc s.pc)) (by rw [updateOf, hm]; rfl)
  · exact execAt_of_updateOf (u := .halt) (by rw [updateOf, hm]; rfl)
  · rw [← truthWord_isZero]
    exact execAt_of_updateOf (u := .acc (truthWord (isZero s.acc))) (by rw [updateOf, hm]; rfl)
  · exact value hx .add rfl rfl
  · exact value hx .sub rfl rfl
  · exact value hx .mul rfl rfl
  · exact value hx .div rfl (if_neg hne) hm
  · exact faultsAt_value (by rw [hm]; rfl) hx (by rw [hm]; exact if_pos hzero)
  · exact value hx .lod rfl rfl
  · rw [← truthWord_both]
    exact value hx .and rfl rfl
  · rw [← truthWord_isNegative]
    exact value hx .cmpl rfl rfl
  · rw [← truthWord_isZero]
    exact value hx .cmpz rfl rfl

/-- Settles O40: none of the twenty forms is STO or HALT. -/
theorem accumulatorFormsFrame : Obligations.AccumulatorFormsFrame := by
  unfold Obligations.AccumulatorFormsFrame
  intro a s t i hi hdone ht
  have hm : i.mnemonic ≠ .sto ∧ i.mnemonic ≠ .halt := by
    revert i
    simp [Instr.mnemonic]
  obtain ⟨u, hu, rfl⟩ := update_of_done hdone ((exec_eq_execAt i s).symm.trans ht)
  exact Update.apply_frame hm.1 hm.2 hu

/-- Settles O41: the update of the nine forms is a new `pc`. -/
theorem controlFormsFrame : Obligations.ControlFormsFrame := by
  unfold Obligations.ControlFormsFrame
  intro a s t i hi hdone ht
  have hm : i.mnemonic = .nop ∨ i.mnemonic.path = .target := by
    revert i
    simp [Instr.mnemonic, Mnemonic.path]
  obtain ⟨u, hu, rfl⟩ := update_of_done hdone ((exec_eq_execAt i s).symm.trans ht)
  obtain ⟨p, rfl⟩ := updateOf_control hm hu
  exact ⟨fun _ => rfl, rfl, rfl, rfl, rfl, rfl⟩

/-- Settles O42: STO is the write at its store index, then the increment. -/
theorem storeFormsFrame : Obligations.StoreFormsFrame := by
  unfold Obligations.StoreFormsFrame
  intro a i s t p hp hi ht
  obtain ⟨hm, hmode, harg⟩ := formsOf_sto a p hp
  rw [← hmode, ← harg] at hi
  rw [exec_eq_execAt, execAt_store hm hi] at ht
  obtain rfl := Host.Outcome.next.inj ht
  refine ⟨by simp, by simp, by simp, fun k hk => ?_, fun hn => ?_⟩
  · rw [slot_advance]
    exact slot_memWrite_other fun h => hk (dataIndex?_eq_some.1 h)
  · rw [memWrite_of_none (dataIndex?_eq_none.2 hn)]
    exact ⟨rfl, rfl⟩

end Sys2Proof.Proofs

/-! ## Words as integers, and the two stores -/

namespace Sys2Proof.Machine

variable {w : Nat}

/-- A word is `wrap` of an integer exactly when it is congruent to it (00_scope.md R8). -/
theorem eq_wrap_iff_dvd {z : Int} {v : BitVec w} : v = wrap z ↔ (2 : Int) ^ w ∣ v.toInt - z := by
  have hlow := BitVec.le_two_mul_toInt (x := v)
  have hhigh := BitVec.two_mul_toInt_lt (x := v)
  have hpow : ((2 ^ w : Nat) : Int) = 2 ^ w := by push_cast; rfl
  rw [← BitVec.toInt_inj, wrap, BitVec.toInt_ofInt, eq_comm, Int.bmod_eq_iff (by positivity), hpow]
  exact ⟨fun h => h.2.2, fun h => ⟨by omega, by omega, h⟩⟩

/-- An integer that lies between two words is that word's value. -/
theorem toInt_wrap_of_between {lo hi : Word w} {z : Int} (hlo : lo.toInt ≤ z) (hhi : z ≤ hi.toInt) :
    (wrap z : Word w).toInt = z := by
  have hlow := BitVec.le_two_mul_toInt (x := lo)
  have hhigh := BitVec.two_mul_toInt_lt (x := hi)
  have hpow : ((2 ^ w : Nat) : Int) = 2 ^ w := by push_cast; rfl
  rw [wrap, BitVec.toInt_ofInt, Int.bmod_eq_iff (by positivity), hpow]
  exact ⟨by omega, by omega, by simp⟩

/-- Division is signed division: both round toward zero and wrap. -/
theorem divW_eq_sdiv (x y : BitVec w) : divW x y = x.sdiv y :=
  BitVec.eq_of_toInt_eq (by rw [divW, wrap, BitVec.toInt_ofInt, BitVec.toInt_sdiv])

/-- The quotient does not overflow but for the most negative word divided by -1 (42_arithmetic.md R182). -/
theorem toInt_divW {x y : BitVec w} (hw : 0 < w) (h : ¬ (x.toInt = -(2 : Int) ^ (w - 1) ∧ y.toInt = -1)) :
    (divW x y).toInt = x.toInt.tdiv y.toInt := by
  rw [divW_eq_sdiv]
  refine BitVec.toInt_sdiv_of_ne_or_ne x y (or_iff_not_and_not.2 fun ⟨hx, hy⟩ => h ?_)
  rw [not_not.1 hx, not_not.1 hy, BitVec.toInt_intMin_of_pos hw, BitVec.neg_one_eq_allOnes, BitVec.toInt_allOnes, if_pos hw]
  exact ⟨rfl, rfl⟩

/-- The remainder of a division rounded toward zero is smaller than the divisor and has not the sign opposite to the
dividend's. -/
theorem tmod_bounds (a : Int) {b : Int} (hb : b ≠ 0) : |a.tmod b| < |b| ∧ 0 ≤ a.tmod b * a := by
  constructor
  · rw [Int.abs_eq_natAbs, Int.abs_eq_natAbs, Int.natAbs_tmod]
    exact_mod_cast Nat.mod_lt _ (Int.natAbs_pos.2 hb)
  · rcases le_total 0 a with ha | ha
    · exact mul_nonneg (Int.tmod_nonneg b ha) ha
    · have hneg : 0 ≤ (-a).tmod b := Int.tmod_nonneg b (by omega)
      rw [Int.neg_tmod] at hneg
      exact mul_nonneg_of_nonpos_of_nonpos (by omega) ha

/-- The first entry of a store is read at its index. -/
theorem get_head (k : Nat) (v : Word w) (rest : Memory w) : Memory.get ((k, v) :: rest) k = v := by
  simp [Memory.get]

/-- The other entries are read past the first. -/
theorem get_tail {k i : Nat} (h : k ≠ i) (v : Word w) (rest : Memory w) : Memory.get ((k, v) :: rest) i = rest.get i := by
  simp [Memory.get, h]

/-- Of two canonical stores that read the same, the one lists first no lower index than the other. -/
theorem head_le_of_get_eq {lo lo' k : Nat} {v : Word w} {rest n : Memory w} (hm : Memory.wfFrom lo ((k, v) :: rest) = true)
    (hn : Memory.wfFrom lo' n = true) (h : ∀ i < Config.dataSlots, Memory.get ((k, v) :: rest) i = n.get i) :
    ∃ k' v' rest', n = (k', v') :: rest' ∧ k' ≤ k := by
  obtain ⟨-, hk, hv, -⟩ := wfFrom_cons.1 hm
  have hget : n.get k ≠ Memory.unlisted := by rwa [← h k hk, get_head]
  cases n with
  | nil => exact absurd rfl hget
  | cons e rest' =>
    obtain ⟨k', v'⟩ := e
    refine ⟨k', v', rest', rfl, Nat.le_of_not_lt fun hlt => hget ?_⟩
    obtain ⟨-, hk', hv', hr'⟩ := wfFrom_cons.1 hn
    exact get_below hlt (wfFrom_cons.2 ⟨le_refl k', hk', hv', hr'⟩)

/-- Canonical stores that read the same are equal, by their first entries and then the rests. -/
theorem eq_of_get_eq : ∀ {m n : Memory w} {lo lo' : Nat}, Memory.wfFrom lo m = true → Memory.wfFrom lo' n = true →
    (∀ i < Config.dataSlots, m.get i = n.get i) → m = n
  | [], [], _, _, _, _, _ => rfl
  | [], (k, v) :: rest, _, _, hm, hn, h => by
    obtain ⟨_, _, _, ⟨⟩, -⟩ := head_le_of_get_eq hn hm fun i hi => (h i hi).symm
  | (k, v) :: rest, n, lo, lo', hm, hn, h => by
    obtain ⟨k', v', rest', rfl, hle⟩ := head_le_of_get_eq hm hn h
    obtain ⟨_, _, _, heq, hle'⟩ := head_le_of_get_eq hn hm fun i hi => (h i hi).symm
    cases heq
    obtain rfl : k' = k := Nat.le_antisymm hle hle'
    obtain ⟨-, hk, -, hrest⟩ := wfFrom_cons.1 hm
    obtain ⟨-, -, -, hrest'⟩ := wfFrom_cons.1 hn
    have hv : v = v' := by
      have := h k' hk
      rwa [get_head, get_head] at this
    have hrests : rest = rest' := by
      refine eq_of_get_eq hrest hrest' fun i hi => ?_
      by_cases hki : k' = i
      · rw [get_below (by omega) hrest, get_below (by omega) hrest']
      · have := h i hi
        rwa [get_tail hki, get_tail hki] at this
    rw [hv, hrests]

/-- A read of another index than the one written. -/
theorem memRead_memWrite_other {s : State w} {i j v : Word w} (h : j ≠ i) : memRead (memWrite s i v) j = memRead s j := by
  refine memRead_of_agree fun k hk => slot_memWrite_other fun hi => h (word_ext ?_)
  rw [NamesSlot] at hk
  rw [hk, dataIndex?_eq_some.1 hi]

/-- A read of code is a look-up in the list of entries. -/
theorem codeRead_eq_getElem (s : State w) (i : Word w) :
    codeRead s i =
      if 0 ≤ i.toInt then (s.code[i.toInt.toNat]?).elim (.error (.codeAccess i)) .ok else .error (.codeAccess i) := by
  rcases codeRead_cases s i with ⟨k, e, hk, he, hr⟩ | ⟨hout, hr⟩ <;> rw [hr]
  · have : i.toInt.toNat = k := by omega
    rw [if_pos (by omega), this, he]
    rfl
  · split
    · rw [List.getElem?_eq_none (by rw [State.codeSize] at hout; omega)]
      rfl
    · rfl

/-- Two states with the same code at an index. -/
theorem codeRead_of_agree {s t : State w} {i : Word w}
    (h : 0 ≤ i.toInt → t.code[i.toInt.toNat]? = s.code[i.toInt.toNat]?) : codeRead t i = codeRead s i := by
  rw [codeRead_eq_getElem, codeRead_eq_getElem]
  split
  · rw [h ‹_›]
  · rfl

/-! ## The range ports -/

/-- All that single accesses in sequence can answer: each access's value, or the fault of one of them. -/
theorem readEach_cases {α : Type} (port : Word w → Except (Fault w) α) : ∀ l : List (Word w),
    (∃ xs, readEach port l = .ok xs ∧ l.map port = xs.map .ok) ∨
      ∃ i ∈ l, ∃ f, port i = .error f ∧ readEach port l = .error f
  | [] => .inl ⟨[], rfl, rfl⟩
  | i :: rest => by
    rw [readEach]
    cases hi : port i with
    | error f => exact .inr ⟨i, List.mem_cons_self, f, hi, rfl⟩
    | ok x =>
      rcases readEach_cases port rest with ⟨xs, hxs, hall⟩ | ⟨j, hj, f, hf, hr⟩
      · exact .inl ⟨x :: xs, by simp [hxs], by simp [hi, hall]⟩
      · exact .inr ⟨j, List.mem_cons_of_mem i hj, f, hf, by simp [hr]⟩

theorem length_indexRange (lo hi : Word w) : (indexRange lo hi).length = (hi.toInt - lo.toInt).toNat := by
  simp [indexRange]

theorem getElem?_indexRange {lo hi : Word w} {n : Nat} (h : n < (hi.toInt - lo.toInt).toNat) :
    (indexRange lo hi)[n]? = some (wrap (lo.toInt + n)) := by
  simp [indexRange, h]

/-- The indices of a range, as integers, are those from `lo` up to and excluding `hi`. -/
theorem mem_indexRange {lo hi i : Word w} :
    i ∈ indexRange lo hi ↔ lo.toInt ≤ i.toInt ∧ i.toInt < hi.toInt := by
  simp only [indexRange, List.mem_map, List.mem_range]
  constructor
  · rintro ⟨n, hn, rfl⟩
    rw [toInt_wrap_of_between (lo := lo) (hi := hi) (by omega) (by omega)]
    omega
  · rintro ⟨hlo, hhi⟩
    refine ⟨(i.toInt - lo.toInt).toNat, by omega, word_ext ?_⟩
    rw [toInt_wrap_of_between (lo := lo) (hi := hi) (by omega) (by omega)]
    omega

/-- A refused request changes nothing (20_memory.md R58, R61). -/
theorem serve_refused {om : OpMap} {r : Request w} {s : State w} {f : Fault w} (h : (serve om r s).2 = .refused f) :
    (serve om r s).1 = s := by
  cases r with
  | clear | assemble | writeAcc | writePc | setData | addCode => cases h
  | readAcc | readPc | readHalted | getData | getDataRange | getCode | getCodeRange | programSize
  | readChangedDataIndex => rfl
  | setCode i e =>
    simp only [serve] at h ⊢
    cases hw : hostSetCode s i e with
    | ok t => simp [hw] at h
    | error g => rfl

end Sys2Proof.Machine

/-! ## The obligations of the integers, the stores and the ports -/

namespace Sys2Proof.Proofs

open Sys2Proof.Machine

/-- Settles O43: every word is in range, so congruence alone decides. -/
theorem wrapIsCongruentAndInRange : Obligations.WrapIsCongruentAndInRange := by
  unfold Obligations.WrapIsCongruentAndInRange
  intro w hw z v
  rw [eq_wrap_iff_dvd]
  exact ⟨fun h => ⟨BitVec.le_toInt v, BitVec.toInt_lt, h⟩, fun h => h.2.2⟩

/-- Settles O44: but for the overflow, which wraps to the dividend, the quotient is the one rounded toward zero. -/
theorem divisionTruncates : Obligations.DivisionTruncates := by
  unfold Obligations.DivisionTruncates
  intro w hw x y hy
  have hpos : 0 < w := by
    have : 10 ≤ w := of_decide_eq_true hw
    omega
  refine ⟨fun hx hy => ?_, fun hne => ⟨x.toInt.tmod y.toInt, ?_, tmod_bounds _ hy⟩⟩
  · refine (eq_wrap_iff_dvd.2 ?_).symm
    have hpow : (2 : Int) ^ w = 2 * 2 ^ (w - 1) := by rw [← pow_succ', Nat.sub_add_cancel hpos]
    rw [hy, hx, hpow, Int.tdiv_neg, Int.tdiv_one]
    exact ⟨-1, by ring⟩
  · rw [toInt_divW hpos hne, Int.tdiv_mul_add_tmod]

/-- Settles O45: the laws of a write to the sparse store, for the slot that an index names. -/
theorem dataReadAfterWrite : Obligations.DataReadAfterWrite := by
  unfold Obligations.DataReadAfterWrite
  intro w s i v hs
  refine ⟨fun k hk => ?_, fun j => memRead_memWrite_other, fun hn => ?_, memWrite_wf hs⟩
  · have hi := dataIndex?_eq_some.2 hk
    rw [memRead_of_index hi, slot_memWrite hs hi, if_pos rfl, memWrite_of_index hi]
    exact ⟨rfl, rfl⟩
  · have hi := dataIndex?_eq_none.2 hn
    exact ⟨memWrite_of_none hi, memRead_of_none hi⟩

/-- Settles O46, by the first entries of both stores. -/
theorem canonicalStoresAreEqual : Obligations.CanonicalStoresAreEqual := by
  unfold Obligations.CanonicalStoresAreEqual
  exact fun w m n => eq_of_get_eq

/-- Settles O47: the laws of a list's append and replacement. -/
theorem codeStoreLaws : Obligations.CodeStoreLaws := by
  unfold Obligations.CodeStoreLaws
  intro w s e i j
  refine ⟨fun hlt => ?_, addCode_of_full, fun hout => ?_, fun hlo hhi => ?_⟩
  · rw [addCode_of_lt hlt]
    refine ⟨by simp [State.codeSize], fun hj => codeRead_of_getElem hj (by simp [State.codeSize]), fun hj => ?_⟩
    refine codeRead_of_agree fun _ => ?_
    rw [State.codeSize] at hj
    rcases Nat.lt_or_gt_of_ne (show j.toInt.toNat ≠ s.code.length by omega) with h | h
    · exact List.getElem?_append_left h
    · rw [List.getElem?_eq_none (by simp; omega), List.getElem?_eq_none (by omega)]
  · exact ⟨codeRead_of_out hout, codeWrite_of_out (by rw [inCode_iff]; omega) e⟩
  · refine ⟨_, codeWrite_of_inCode (inCode_iff.2 ⟨hlo, hhi⟩) e, by simp [State.codeSize], ?_, fun hj => ?_, rfl⟩
    · refine codeRead_of_getElem (Int.toNat_of_nonneg hlo).symm (List.getElem?_set_self ?_)
      rw [State.codeSize] at hhi
      omega
    · refine codeRead_of_agree fun hj' => List.getElem?_set_ne fun heq => hj (word_ext ?_)
      omega

/-- Settles O50, one port at a time. -/
theorem hostPortsChangeOneItem : Obligations.HostPortsChangeOneItem := by
  unfold Obligations.HostPortsChangeOneItem
  intro w om r s
  refine ⟨fun f hf => ?_, fun hr => ?_, fun i lo hi hr => ?_, ?_, ?_, ?_, ?_, ?_, fun i hr => ⟨fun k hk => ?_, fun hn => ?_⟩,
    fun i hr => ⟨fun n e hn he => ?_, fun hout => ?_⟩, ?_, ?_, ?_, ?_, fun i e t hr ht => ?_, fun i e f hr hf => ?_,
    fun i e hr hlo hhi => ?_⟩
  · exact serve_refused hf
  · exact perform_halted om (op := .host r) s nofun fun h => hr (Operation.host.inj h)
  · simp only [List.mem_cons, List.not_mem_nil, or_false] at hr
    rcases hr with rfl | rfl | rfl | rfl | rfl | rfl | rfl | rfl | rfl <;> rfl
  · rintro rfl; rfl
  · rintro rfl; rfl
  · rintro rfl; rfl
  · rintro rfl; rfl
  · rintro rfl; rfl
  · subst hr
    simp only [serve, hostGetData, memRead_of_index (dataIndex?_eq_some.2 hk), replyOf]
  · subst hr
    simp only [serve, hostGetData, memRead_of_none (dataIndex?_eq_none.2 hn), replyOf]
  · subst hr
    simp only [serve, hostGetCode, codeRead_of_getElem hn he, replyOf]
  · subst hr
    simp only [serve, hostGetCode, codeRead_of_out hout, replyOf]
  · rintro v rfl; rfl
  · rintro v rfl; rfl
  · rintro i v rfl; rfl
  · rintro e rfl; rfl
  · subst hr
    simp only [serve, hostSetCode, ht]
  · subst hr
    simp only [serve, hostSetCode, hf]
  · subst hr
    simp only [serve, hostSetCode, codeWrite_of_inCode (inCode_iff.2 ⟨hlo, hhi⟩)]

/-- Settles O51: the range port answers the contents unless a single access is refused, and one is exactly when an index of
the range names no slot. -/
theorem dataRangePort : Obligations.DataRangePort := by
  unfold Obligations.DataRangePort
  intro w om s lo hi
  have hserve : serve om (.getDataRange lo hi) s = (s, replyOf .words (readEach (memRead s) (indexRange lo hi))) := rfl
  rw [hserve]
  refine ⟨fun hlo hhi => ?_, fun hlt hout => ?_⟩
  · rcases readEach_cases (memRead s) (indexRange lo hi) with ⟨xs, hr, hall⟩ | ⟨i, hi', f, hf, -⟩
    · have hlength : xs.length = (hi.toInt - lo.toInt).toNat := by
        simpa [length_indexRange] using (congrArg List.length hall).symm
      refine ⟨xs, by rw [hr, replyOf], hlength, fun n k hn hk => ?_⟩
      rw [hlength] at hn
      have hindex : (wrap (lo.toInt + n) : Word w).toInt = k.val := by
        rw [toInt_wrap_of_between (lo := lo) (hi := hi) (by omega) (by omega), hk]
      have hnth := congrArg (·[n]?) hall
      simp only [List.getElem?_map, getElem?_indexRange hn, Option.map_some,
        memRead_of_index (dataIndex?_eq_some.2 hindex)] at hnth
      obtain ⟨x, hx, heq⟩ := Option.map_eq_some_iff.1 hnth.symm
      rw [hx, Except.ok.inj heq]
    · obtain ⟨hge, hlt⟩ := mem_indexRange.1 hi'
      obtain ⟨-, hno⟩ := memRead_error hf
      simp only [NamesNoSlot, Config.dataSlots] at hno hhi
      omega
  · obtain ⟨bad, hmem, hbad⟩ : ∃ i ∈ indexRange lo hi, NamesNoSlot i := by
      by_cases hneg : lo.toInt < 0
      · exact ⟨lo, mem_indexRange.2 ⟨le_rfl, hlt⟩, .inl hneg⟩
      · have hlast : (wrap (hi.toInt - 1) : Word w).toInt = hi.toInt - 1 :=
          toInt_wrap_of_between (lo := lo) (hi := hi) (by omega) (by omega)
        refine ⟨wrap (hi.toInt - 1), mem_indexRange.2 (by omega), .inr ?_⟩
        simp only [Config.dataSlots] at hout
        omega
    rcases readEach_cases (memRead s) (indexRange lo hi) with ⟨xs, -, hall⟩ | ⟨i, -, f, hf, hr⟩
    · have hread : memRead s bad ∈ xs.map .ok := hall ▸ List.mem_map_of_mem hmem
      rw [memRead_of_none (dataIndex?_eq_none.2 hbad)] at hread
      simp at hread
    · obtain ⟨rfl, hno⟩ := memRead_error hf
      exact ⟨i, hno, by rw [hr, replyOf]⟩

end Sys2Proof.Proofs

/-! ## The assembler: a source's bytes, its lines, and what the loading pass leaves -/

namespace Sys2Proof.Machine

variable {w : Nat}

/-- The character of a whole sequence is the one whose code point is its value. -/
theorem char?_eq_some_iff {q : Utf8Sequence} {c : Char} : q.char? = some c ↔ c.toNat = q.value ∧ q.least ≤ q.value := by
  unfold Utf8Sequence.char?
  constructor
  · intro h
    split at h
    next hq =>
      cases h
      refine ⟨?_, hq.1⟩
      rw [Char.ofNat, dif_pos hq.2]
      rfl
    · cases h
  · rintro ⟨hc, hle⟩
    have hvalid : q.value.isValidChar := hc ▸ c.valid
    rw [if_pos ⟨hle, hvalid⟩, ← hc, Char.ofNat_toNat]

/-- The further bytes of a character of a code point: six bits each, the highest first. -/
def continuationBytes : Nat → Nat → List (BitVec 8)
  | 0, _ => []
  | n + 1, v => BitVec.ofNat 8 (0x80 + v / 64 ^ n % 64) :: continuationBytes n v

/-- What is read of the bytes after the latest one of a sequence: as `utf8From` goes on. -/
def utf8After (q : Utf8Sequence) (rest : List (BitVec 8)) : Option (List Char) :=
  if q.more = 0 then q.char?.bind fun c => (utf8From none rest).map fun cs => c :: cs else utf8From (some q) rest

theorem utf8From_cons (pending : Option Utf8Sequence) (b : BitVec 8) (rest : List (BitVec 8)) :
    utf8From pending (b :: rest) =
      (pending.elim (utf8Lead? b) fun q => utf8Continue? q b).bind fun q => utf8After q rest := rfl

/-- A further byte adds six bits: the value so far is that of the code point without them. -/
theorem utf8Continue?_eq_some_iff {q q' : Utf8Sequence} {b : BitVec 8} :
    utf8Continue? q b = some q' ↔
      b = BitVec.ofNat 8 (0x80 + q'.value % 64) ∧ q'.value / 64 = q.value ∧ q'.more = q.more - 1 ∧ q'.least = q.least := by
  have hb := b.isLt
  obtain ⟨value, more, least⟩ := q'
  rw [← BitVec.toNat_inj, BitVec.toNat_ofNat, Nat.mod_eq_of_lt (by omega)]
  unfold utf8Continue?
  split
  · simp only [Option.some.injEq, Utf8Sequence.mk.injEq]
    constructor
    · rintro ⟨hvalue, hmore, hleast⟩
      exact ⟨by omega, by omega, hmore.symm, hleast.symm⟩
    · rintro ⟨hlow, hhigh, hmore, hleast⟩
      exact ⟨by omega, hmore.symm, hleast.symm⟩
  · simp only [reduceCtorEq, false_iff]
    rintro ⟨hlow, -⟩
    omega

/-- After a byte of a character: its further bytes, then a text. -/
theorem utf8After_eq_some_iff {cs : List Char} : ∀ {n : Nat} {q : Utf8Sequence} {bs : List (BitVec 8)}, q.more = n →
    (utf8After q bs = some cs ↔ ∃ c cs' rest, cs = c :: cs' ∧ bs = continuationBytes n c.toNat ++ rest ∧
      utf8From none rest = some cs' ∧ c.toNat / 64 ^ n = q.value ∧ q.least ≤ c.toNat)
  | 0, q, bs, hn => by
    rw [utf8After, if_pos hn]
    simp only [Option.bind_eq_some_iff, Option.map_eq_some_iff, char?_eq_some_iff, continuationBytes, List.nil_append,
      Nat.pow_zero, Nat.div_one]
    constructor
    · rintro ⟨c, ⟨hc, hle⟩, cs', hcs, rfl⟩
      exact ⟨c, cs', bs, rfl, rfl, hcs, hc, hc ▸ hle⟩
    · rintro ⟨c, cs', rest, rfl, rfl, hcs, hc, hle⟩
      exact ⟨c, ⟨hc, hc ▸ hle⟩, cs', hcs, rfl⟩
  | n + 1, q, [], hn => by
    rw [utf8After, if_neg (by omega)]
    simp [utf8From, continuationBytes]
  | n + 1, q, b :: bs, hn => by
    rw [utf8After, if_neg (by omega), utf8From_cons, Option.bind_eq_some_iff]
    simp only [Option.elim_some, utf8Continue?_eq_some_iff, continuationBytes, List.cons_append, List.cons.injEq]
    constructor
    · rintro ⟨q', ⟨rfl, hvalue, hmore, hleast⟩, hrest⟩
      obtain ⟨c, cs', rest, rfl, rfl, hcs, hc, hle⟩ := (utf8After_eq_some_iff (n := n) (by omega)).1 hrest
      refine ⟨c, cs', rest, rfl, ⟨by rw [hc], rfl⟩, hcs, ?_, hleast ▸ hle⟩
      rw [Nat.pow_succ, ← Nat.div_div_eq_div_mul, hc, hvalue]
    · rintro ⟨c, cs', rest, rfl, ⟨rfl, rfl⟩, hcs, hc, hle⟩
      refine ⟨⟨c.toNat / 64 ^ n, n, q.least⟩, ⟨rfl, ?_, by simp [hn], rfl⟩,
        (utf8After_eq_some_iff (n := n) rfl).2 ⟨c, cs', rest, rfl, rfl, hcs, rfl, hle⟩⟩
      rw [← hc, Nat.pow_succ, Nat.div_div_eq_div_mul]

/-- The first bytes of characters: how many leading ones, how many bytes follow, and the bits of the value. -/
theorem utf8Lead?_eq_some_iff {b : BitVec 8} {q : Utf8Sequence} :
    utf8Lead? b = some q ↔
      (b.toNat < 0x80 ∧ q = ⟨b.toNat, 0, 0⟩) ∨ (0xC0 ≤ b.toNat ∧ b.toNat < 0xE0 ∧ q = ⟨b.toNat - 0xC0, 1, 0x80⟩) ∨
      (0xE0 ≤ b.toNat ∧ b.toNat < 0xF0 ∧ q = ⟨b.toNat - 0xE0, 2, 0x800⟩) ∨
      (0xF0 ≤ b.toNat ∧ b.toNat < 0xF8 ∧ q = ⟨b.toNat - 0xF0, 3, 0x10000⟩) := by
  unfold utf8Lead?
  constructor
  · intro h
    split_ifs at h
    · exact .inl ⟨by omega, (Option.some.inj h).symm⟩
    · exact .inr (.inl ⟨by omega, by omega, (Option.some.inj h).symm⟩)
    · exact .inr (.inr (.inl ⟨by omega, by omega, (Option.some.inj h).symm⟩))
    · exact .inr (.inr (.inr ⟨by omega, by omega, (Option.some.inj h).symm⟩))
  · rintro (⟨h, rfl⟩ | ⟨h, h', rfl⟩ | ⟨h, h', rfl⟩ | ⟨h, h', rfl⟩)
    · rw [if_pos h]
    · rw [if_neg (by omega), if_neg (by omega), if_pos h']
    · rw [if_neg (by omega), if_neg (by omega), if_neg (by omega), if_pos h']
    · rw [if_neg (by omega), if_neg (by omega), if_neg (by omega), if_neg (by omega), if_pos h']

/-- The first byte that begins a character of a code point: it holds the bits above those of the bytes to follow, and the
code point needs as many. -/
def LeadsTo (b : BitVec 8) (q : Utf8Sequence) (c : Char) : Prop :=
  utf8Lead? b = some q ∧ c.toNat / 64 ^ q.more = q.value ∧ q.least ≤ c.toNat

/-- A byte of Lean's encoder, as a bit vector. -/
theorem toBitVec_ofNat_eq {b : BitVec 8} {n : Nat} (h : b.toNat = n) : (UInt8.ofNat n).toBitVec = b := by
  subst h
  simp

/-- Lean's encoder writes the leading byte and then the further bytes. -/
theorem utf8EncodeChar_of_leadsTo {b : BitVec 8} {q : Utf8Sequence} {c : Char} (h : LeadsTo b q c) :
    (String.utf8EncodeChar c).map UInt8.toBitVec = b :: continuationBytes q.more c.toNat := by
  obtain ⟨hlead, hvalue, hleast⟩ := h
  have hc : c.val.toNat = c.toNat := rfl
  rw [String.utf8EncodeChar]
  simp only [hc]
  rcases utf8Lead?_eq_some_iff.1 hlead with ⟨hb, rfl⟩ | ⟨hb, hb', rfl⟩ | ⟨hb, hb', rfl⟩ | ⟨hb, hb', rfl⟩ <;>
    simp only at hvalue hleast
  · rw [if_pos (by omega)]
    simp only [List.map, continuationBytes, List.cons.injEq, and_true]
    exact toBitVec_ofNat_eq (by omega)
  · rw [if_neg (by omega), if_pos (by omega)]
    simp only [List.map, continuationBytes, List.cons.injEq, and_true]
    refine ⟨toBitVec_ofNat_eq (by omega), toBitVec_ofNat_eq ?_⟩
    rw [BitVec.toNat_ofNat]
    omega
  · rw [if_neg (by omega), if_neg (by omega), if_pos (by omega)]
    simp only [List.map, continuationBytes, List.cons.injEq, and_true]
    refine ⟨toBitVec_ofNat_eq (by omega), toBitVec_ofNat_eq ?_, toBitVec_ofNat_eq ?_⟩ <;> rw [BitVec.toNat_ofNat] <;> omega
  · rw [if_neg (by omega), if_neg (by omega), if_neg (by omega)]
    simp only [List.map, continuationBytes, List.cons.injEq, and_true]
    refine ⟨toBitVec_ofNat_eq (by omega), toBitVec_ofNat_eq ?_, toBitVec_ofNat_eq ?_, toBitVec_ofNat_eq ?_⟩ <;>
      rw [BitVec.toNat_ofNat] <;> omega

/-- Every character has a leading byte. -/
theorem exists_leadsTo (c : Char) : ∃ b q, LeadsTo b q c := by
  have hc : c.toNat < 0x110000 := by
    rcases c.valid with h | h
    · exact Nat.lt_trans h (by decide)
    · exact h.2
  have byte : ∀ n < 256, (BitVec.ofNat 8 n).toNat = n := fun n hn => by rw [BitVec.toNat_ofNat, Nat.mod_eq_of_lt hn]
  by_cases h1 : c.toNat < 0x80
  · refine ⟨BitVec.ofNat 8 c.toNat, _, utf8Lead?_eq_some_iff.2 (.inl ⟨?_, rfl⟩), ?_, ?_⟩ <;>
      simp only [byte c.toNat (by omega)] <;> omega
  by_cases h2 : c.toNat < 0x800
  · refine ⟨BitVec.ofNat 8 (c.toNat / 64 + 0xC0), _, utf8Lead?_eq_some_iff.2 (.inr (.inl ⟨?_, ?_, rfl⟩)), ?_, ?_⟩ <;>
      simp only [byte (c.toNat / 64 + 0xC0) (by omega)] <;> omega
  by_cases h3 : c.toNat < 0x10000
  · refine ⟨BitVec.ofNat 8 (c.toNat / 4096 + 0xE0), _,
      utf8Lead?_eq_some_iff.2 (.inr (.inr (.inl ⟨?_, ?_, rfl⟩))), ?_, ?_⟩ <;>
      simp only [byte (c.toNat / 4096 + 0xE0) (by omega)] <;> omega
  · refine ⟨BitVec.ofNat 8 (c.toNat / 262144 + 0xF0), _,
      utf8Lead?_eq_some_iff.2 (.inr (.inr (.inr ⟨?_, ?_, rfl⟩))), ?_, ?_⟩ <;>
      simp only [byte (c.toNat / 262144 + 0xF0) (by omega)] <;> omega

/-- A text's first byte leads to its first character; the bytes that follow it and the rest of the text follow. -/
theorem cons_eq_utf8Encode_cons_iff {b : BitVec 8} {bs : List (BitVec 8)} {c : Char} {cs : List Char} :
    b :: bs = utf8Encode (c :: cs) ↔ ∃ q, LeadsTo b q c ∧ bs = continuationBytes q.more c.toNat ++ utf8Encode cs := by
  have hcons : utf8Encode (c :: cs) = (String.utf8EncodeChar c).map UInt8.toBitVec ++ utf8Encode cs := rfl
  rw [hcons]
  constructor
  · obtain ⟨b', q, h⟩ := exists_leadsTo c
    rw [utf8EncodeChar_of_leadsTo h, List.cons_append]
    rintro ⟨⟩
    exact ⟨q, h, rfl⟩
  · rintro ⟨q, h, rfl⟩
    rw [utf8EncodeChar_of_leadsTo h, List.cons_append]

/-- The bytes read as a text are its UTF-8 form, by induction on the text. -/
theorem utf8From_none_eq_some_iff : ∀ {cs : List Char} {source : List (BitVec 8)},
    utf8From none source = some cs ↔ source = utf8Encode cs
  | [], [] => by simp [utf8From, utf8Encode]
  | c :: cs, [] => by
    obtain ⟨b, q, h⟩ := exists_leadsTo c
    have hcons : utf8Encode (c :: cs) = b :: (continuationBytes q.more c.toNat ++ utf8Encode cs) :=
      (cons_eq_utf8Encode_cons_iff.2 ⟨q, h, rfl⟩).symm
    simp [utf8From, hcons]
  | [], b :: bs => by
    rw [utf8From_cons, Option.bind_eq_some_iff]
    simp [utf8After_eq_some_iff rfl, utf8Encode]
  | c :: cs, b :: bs => by
    rw [utf8From_cons, Option.bind_eq_some_iff, cons_eq_utf8Encode_cons_iff]
    refine exists_congr fun q => ?_
    rw [utf8After_eq_some_iff rfl]
    constructor
    · rintro ⟨hlead, c', cs', rest, ⟨⟩, rfl, hrest, hvalue, hleast⟩
      rw [utf8From_none_eq_some_iff] at hrest
      exact ⟨⟨hlead, hvalue, hleast⟩, by rw [hrest]⟩
    · rintro ⟨⟨hlead, hvalue, hleast⟩, rfl⟩
      exact ⟨hlead, c, cs, _, rfl, rfl, utf8From_none_eq_some_iff.2 rfl, hvalue, hleast⟩

theorem utf8Decode_eq_some_iff {source : List (BitVec 8)} {cs : List Char} :
    utf8Decode source = some cs ↔ source = utf8Encode cs := utf8From_none_eq_some_iff

/-! ## Diagnostics and lines -/

/-- The number of a diagnostic is that of a line read, or of the first of the blank lines pending. -/
theorem line_of_validateFrom_error : ∀ {text : List Line} {n b : Nat} {mode : SourceMode} {d : Diagnostic}, b < n →
    validateFrom (w := w) n b mode text = .error d → n - b ≤ d.line ∧ d.line < n + text.length
  | [], _, _, _, _, _, h => by cases h
  | l :: rest, n, b, mode, d, hb, h => by
    have later : ∀ {b' mode'}, b' ≤ b + 1 → validateFrom (w := w) (n + 1) b' mode' rest = .error d →
        n - b ≤ d.line ∧ d.line < n + (l :: rest).length := by
      intro b' mode' hb' hr
      have := line_of_validateFrom_error (by omega) hr
      simp only [List.length_cons]
      omega
    rw [validateFrom] at h
    split at h
    · exact later le_rfl h
    split at h
    · obtain rfl := Except.error.inj h
      simp only [List.length_cons]
      omega
    split at h
    · obtain rfl := Except.error.inj h
      simp only [List.length_cons]
      omega
    · exact later (Nat.zero_le _) h
    · split at h
      · cases h
      next hr =>
        obtain rfl := Except.error.inj h
        exact later (Nat.zero_le _) hr

/-- The diagnostic of a source names one of its lines (30_encoding.md R120). -/
theorem line_of_validate_error {text : List Line} {d : Diagnostic} (h : validate (w := w) text = .error d) :
    1 ≤ d.line ∧ d.line ≤ text.length := by
  have := line_of_validateFrom_error Nat.one_pos h
  omega

theorem assembleLines_of_ok {text : List Line} {items : List (Item w)} (h : validate text = .ok items) (om : OpMap)
    (s : State w) : assembleLines om text s = (load om items s, none) := by
  rw [assembleLines, h]

theorem assembleLines_of_error {text : List Line} {d : Diagnostic} (h : validate (w := w) text = .error d) (om : OpMap)
    (s : State w) : assembleLines om text s = (s, some d) := by
  rw [assembleLines, h]

theorem assemble_of_decode {source : List (BitVec 8)} {cs : List Char} (h : utf8Decode source = some cs) (om : OpMap)
    (s : State w) :
    assemble om source s = ((assembleLines om (sourceLines cs) s).1, .text (assembleLines om (sourceLines cs) s).2) := by
  rw [assemble, h]

theorem assemble_of_notText {source : List (BitVec 8)} (h : utf8Decode source = none) (om : OpMap) (s : State w) :
    assemble om source s = (s, .notText) := by
  rw [assemble, h]

/-- A source of one legal line. -/
theorem validate_line_ok {l : Line} {item : Item w} (hl : isBlank l = false) (h : checkLine .code l = .ok (some item)) :
    validate [l] = .ok [item] :=
  (validateFrom_line_ok_iff hl).2 ⟨by omega, .inr ⟨item, [], h, rfl, rfl⟩⟩

/-- A source of one line that is refused. -/
theorem validate_line_error {l : Line} {m : Message} (hl : isBlank l = false) (h : checkLine (w := w) .code l = .error m) :
    validate (w := w) [l] = .error ⟨1, m⟩ := by
  rw [validate, validateFrom, if_neg (by simp [hl]), if_neg (by omega), h]

/-- A line that starts with a character other than space and tab is not blank, and has no leading space. -/
theorem starts_of_not_isSpace {c : Char} (h : isSpace c = false) (cs : List Char) :
    isBlank (c :: cs) = false ∧ startsWithSpace (c :: cs) = false := by
  simp [isBlank, startsWithSpace, h]

theorem isSpace_mnemonicText (m : Mnemonic) : ∀ c ∈ mnemonicText m, isSpace c = false := by
  cases m <;> simp [mnemonicText, isSpace]

theorem mnemonicText_ne_nil (m : Mnemonic) : mnemonicText m ≠ [] := by
  cases m <;> decide

/-- A mnemonic as written starts a line. -/
theorem mnemonicText_append_starts (m : Mnemonic) (rest : List Char) :
    isBlank (mnemonicText m ++ rest) = false ∧ startsWithSpace (mnemonicText m ++ rest) = false := by
  obtain ⟨c, cs, hc⟩ := List.exists_cons_of_ne_nil (mnemonicText_ne_nil m)
  rw [hc]
  exact starts_of_not_isSpace (isSpace_mnemonicText m c (by simp [hc])) (cs ++ rest)

/-- A line of a mnemonic and one argument (30_encoding.md R123). -/
theorem checkLine_pair (m : Mnemonic) {token : List Char} (hs : ∀ c ∈ token, isSpace c = false) (hn : token ≠ []) :
    checkLine (w := w) .code (mnemonicText m ++ ' ' :: token) = (operands m [token]).map some := by
  rw [checkLine, (mnemonicText_append_starts m _).2, tokens_pair (isSpace_mnemonicText m) hs (mnemonicText_ne_nil m) hn,
    codeLine_mnemonicText]
  simp

/-- A hex digit is no space, and no mark of a mode. -/
theorem not_hexDigit : ∀ c ∈ [' ', '\t', 'M', 'N', 'J'], hexTable.lookup c = none := by simp [hexTable]

theorem isSpace_of_hexDigit {c : Char} (h : hexTable.lookup c ≠ none) : isSpace c = false := by
  simp only [isSpace, Bool.or_eq_false_iff, beq_eq_false_iff_ne]
  exact ⟨fun hc => h (not_hexDigit c (by simp [hc])), fun hc => h (not_hexDigit c (by simp [hc]))⟩

theorem hexDigit_of_hexValue : ∀ {ds : List Char} {high n : Nat}, hexValue? high ds = some n →
    ∀ c ∈ ds, hexTable.lookup c ≠ none
  | [], _, _, _ => nofun
  | d :: ds, high, n, h => by
    rw [hexValue?, Option.bind_eq_some_iff] at h
    obtain ⟨digit, hd, hrest⟩ := h
    exact List.forall_mem_cons.2 ⟨by simp [hd], hexDigit_of_hexValue hrest⟩

theorem hexDigit_of_hexMagnitude {ds : List Char} {n : Nat} (h : hexMagnitude? ds = some n) :
    ds ≠ [] ∧ ∀ c ∈ ds, hexTable.lookup c ≠ none := by
  rw [hexMagnitude?] at h
  split at h
  · cases h
  · exact ⟨by simpa using ‹¬ ds.isEmpty = true›, hexDigit_of_hexValue h⟩

/-- An argument that starts with a hex digit has no mark. -/
theorem splitPrefix_of_hexDigit {ds : List Char} (h : ∀ c ∈ ds, hexTable.lookup c ≠ none) :
    splitPrefix ds = (.direct, ds) := by
  unfold splitPrefix
  split
  · exact absurd (not_hexDigit 'M' (by simp)) (h 'M' (by simp))
  · exact absurd (not_hexDigit 'N' (by simp)) (h 'N' (by simp))
  · exact absurd (not_hexDigit 'J' (by simp)) (h 'J' (by simp))
  · rfl

/-- A hex number as written: not empty, without spaces, and without a mark. -/
theorem chars_of_hexNumber {ds : List Char} {a : Word w} (h : hexNumber? ds = some a) :
    ds ≠ [] ∧ (∀ c ∈ ds, isSpace c = false) ∧ splitPrefix ds = (.direct, ds) := by
  unfold hexNumber? at h
  split at h <;> obtain ⟨n, hn, -⟩ := Option.bind_eq_some_iff.1 h <;> obtain ⟨hne, hdigits⟩ := hexDigit_of_hexMagnitude hn
  · exact ⟨nofun, List.forall_mem_cons.2 ⟨rfl, fun c hc => isSpace_of_hexDigit (hdigits c hc)⟩, rfl⟩
  · exact ⟨hne, fun c hc => isSpace_of_hexDigit (hdigits c hc), splitPrefix_of_hexDigit hdigits⟩

theorem isSpace_prefixText (mode : AddrMode) : ∀ c ∈ prefixText mode, isSpace c = false := by
  cases mode <;> simp [prefixText, isSpace]

/-- The mark of a legal form's mode is accepted. -/
theorem prefixAccepted_of_legal {m : Mnemonic} {mode : AddrMode} (h : Legal m mode = true) :
    prefixAccepted m mode = true := by
  cases mode with
  | direct => rfl
  | immediate | indirect => exact h
  | special => rcases legal_special_iff.1 h with rfl | rfl <;> rfl

/-- The mark of a mode is read back (30_encoding.md R125). -/
theorem splitPrefix_prefixText (mode : AddrMode) {ds : List Char} (h : splitPrefix ds = (.direct, ds)) :
    splitPrefix (prefixText mode ++ ds) = (mode, ds) := by
  cases mode with
  | direct => exact h
  | immediate | indirect | special => rfl

/-! ## The loading pass -/

/-- What an item appends to the code store. -/
def Item.entry? (om : OpMap) : Item w → Option (CodeEntry w)
  | .code m mode a => some (encodeForm om m mode a)
  | .data _ _ => none

/-- The loading pass appends in source order, up to the capacity (30_encoding.md R131). -/
theorem load_code (om : OpMap) : ∀ (items : List (Item w)) {s : State w}, s.codeSize ≤ Config.codeCap →
    (load om items s).code = (s.code ++ items.filterMap (Item.entry? om)).take Config.codeCap
  | [], s, h => by
    rw [List.filterMap_nil, List.append_nil, List.take_of_length_le h]
    rfl
  | .code m mode a :: rest, s, h => by
    have ih := load_code om rest (addCode_size (e := encodeForm om m mode a) h)
    rw [load, List.foldl_cons, ← load, loadItem, ih, List.filterMap_cons]
    simp only [Item.entry?]
    rcases Nat.lt_or_ge s.codeSize Config.codeCap with hlt | hge
    · rw [addCode_of_lt hlt, List.append_assoc]
      rfl
    · rw [addCode_of_full hge, List.take_append_of_le_length hge, List.take_append_of_le_length hge]
  | .data i v :: rest, s, h => by
    have ih := load_code om rest (s := memWrite s i v) (by rwa [State.codeSize, memWrite_code])
    rw [memWrite_code] at ih
    exact ih

end Sys2Proof.Machine

/-! ## The obligations of the assembler -/

namespace Sys2Proof.Proofs

open Sys2Proof.Machine

/-- Settles O60: the decoder reads the bytes of each character back, and only those. -/
theorem sourceIsUtf8Text : Obligations.SourceIsUtf8Text := by
  unfold Obligations.SourceIsUtf8Text
  refine ⟨fun source cs => utf8Decode_eq_some_iff, fun w om cs s => ?_, fun w om source s h => ?_⟩
  · exact assemble_of_decode (utf8Decode_eq_some_iff.2 rfl) om s
  · refine assemble_of_notText (Option.eq_none_iff_forall_ne_some.2 fun cs hcs => h cs ?_) om s
    exact utf8Decode_eq_some_iff.1 hcs

/-- Settles O52: a diagnostic is found before the lines that follow are looked at, and nothing is loaded. -/
theorem firstOffendingLineWins : Obligations.FirstOffendingLineWins := by
  unfold Obligations.FirstOffendingLineWins
  intro w om text more s
  refine ⟨fun d hd => ?_, ?_, fun source cs d hcs hd => ?_⟩
  · exact ⟨validateFrom_error_append hd, assembleLines_of_error hd om s, line_of_validate_error hd⟩
  · cases hv : validate (w := w) text with
    | ok items => simp [assembleLines_of_ok hv, resultLine]
    | error d =>
      have := line_of_validate_error hv
      simp only [assembleLines_of_error hv, resultLine, reduceCtorEq, exists_false, iff_false]
      omega
  · simp only [serve, assemble_of_decode hcs, assembleLines_of_error hd]

/-- Settles O55: the line of a legal form has two tokens, the mnemonic and the argument with the mark of its mode, which is
split off again. -/
theorem legalFormsCanBeWritten : Obligations.LegalFormsCanBeWritten := by
  unfold Obligations.LegalFormsCanBeWritten
  intro w m mode ds a hl hds
  obtain ⟨hne, hspace, hsplit⟩ := chars_of_hexNumber hds
  refine ⟨fun hm => ?_, fun hm => ⟨?_, ?_⟩⟩
  · have hz : ¬ zeroOperand m = true := fun hz => hm (zeroOperand_iff.1 hz)
    refine validate_line_ok (mnemonicText_append_starts m _).1 ?_
    rw [checkLine_pair m (List.forall_mem_append.2 ⟨isSpace_prefixText mode, hspace⟩) (by simp [hne]), operands, if_neg hz,
      argument, splitPrefix_prefixText mode hsplit, if_pos (prefixAccepted_of_legal hl), hds]
    rfl
  · simp only [List.mem_cons, List.not_mem_nil, or_false] at hm
    rcases hm with rfl | rfl | rfl <;> rfl
  · refine validate_line_error (mnemonicText_append_starts m _).1 ?_
    rw [checkLine_pair m hspace hne, operands, if_pos (zeroOperand_iff.2 hm)]
    rfl

/-- Settles O56: an accepted source is loaded, item by item. -/
theorem loaderAppendsInOrder : Obligations.LoaderAppendsInOrder := by
  unfold Obligations.LoaderAppendsInOrder
  intro w om source cs items s hs hcs hv
  have hassemble : assemble om source s = (load om items s, .text none) := by
    rw [assemble_of_decode hcs, assembleLines_of_ok hv]
  obtain ⟨hacc, hpc, hhalted⟩ := load_registers om items s
  rw [hassemble]
  exact ⟨load_code om items hs.2, hacc, hpc, hhalted, rfl⟩

end Sys2Proof.Proofs
